-- ==== Sys2Proof/Config.lean ====
section
/-! DEFINITION. The parameters of 00_scope.md R6 as configuration fields: the sizes of the machine's types as one record, every
parameter that is a value as another, and the answers of the collaborators as free values. -/

namespace Sys2Proof

/-- The parameters of R6 that are the sizes of the machine's types, each a field with the source's number for a default (the
numbers are unaudited: log entry 8). -/
structure Sizes where
  /-- `NREGS`: general registers V0..VF. -/
  nregs : Nat := 16
  /-- `VWIDTH`: the width of each V register, of DT and of ST. -/
  vwidth : Nat := 8
  /-- `IWIDTH`: the width of the index register. -/
  iwidth : Nat := 16
  /-- `PCWIDTH`: the width of the program counter and of each stack entry. -/
  pcwidth : Nat := 16
  /-- `IWORD`: the instruction width. -/
  iword : Nat := 16
  deriving DecidableEq, Repr

/-- The sizes of this machine: the source's. Every type of the state and every result is built from this one record, so a size
an audit changes is changed here (92 D1). -/
abbrev sizes : Sizes := {}

/-- `SHIFT_SRC` (R6): the register that 8XY6 and 8XYE shift. -/
inductive ShiftSrc where
  /-- VX is shifted in place, y is ignored: the spec's default (92 D6). -/
  | x
  /-- VY is shifted into VX. -/
  | y
  deriving DecidableEq, Repr

/-- `TIMER_TICK` (R6): whether an agent that decrements DT and ST exists. -/
inductive TimerTick where
  /-- Nothing decrements the timers: the spec's default (92 D11). -/
  | absent
  /-- The agent of 60_exceptions.md R242 exists. -/
  | present
  deriving DecidableEq, Repr

/-- The parameters of R6 that are values: those with a source's number, as fields with that number for a default (the numbers are
unaudited: log entry 8), and those the spec leaves OPEN or offers as options. The machine keeps them as data that no step changes,
so a statement about every state is a statement about every choice of them. -/
structure Config where
  /-- `CAPACITY`: the number of bytes of memory (20_memory.md R60). -/
  capacity : Nat := 4095
  /-- `ORIGIN`: where the program is loaded and where pc starts. -/
  origin : Nat := 0x200
  /-- `STACK_DEPTH`: the most entries the call stack holds (10_state.md R33). -/
  stackDepth : Nat := 16
  /-- `NKEYS`: keys are numbered 0..NKEYS-1 (60_exceptions.md R244). -/
  nkeys : Nat := 16
  /-- `FONT_BASE`: the address of the first byte of glyph 0 (20_memory.md R71). -/
  fontBase : Nat
  /-- `GLYPH_BYTES`: bytes per glyph (R71). -/
  glyphBytes : Nat
  /-- `FONT_DATA`: the bytes of the sixteen glyphs (R71). -/
  fontData : List (BitVec sizes.vwidth)
  /-- `SHIFT_SRC`. -/
  shiftSrc : ShiftSrc
  /-- `TIMER_TICK`. -/
  timerTick : TimerTick
  deriving DecidableEq, Repr

/-! The answers of the collaborators are inputs under no law (60_exceptions.md R243 to R245; 93 U11, U12, U19). Each is a
FREE VALUE: a constant without a body, applied to the state's running index `fresh`, so that two calls get
unrelated answers. DESIGN CHOICE (the form), safe: log entries 1 and 2. -/

/-- The byte `draw8()` answers to the call with this index (60 R245): any byte. -/
opaque Config.randomByte : Nat → BitVec sizes.vwidth

/-- What `Keyboard.isPressed` answers to the call with this index (60 R244): true or false. -/
opaque Config.keyPressed : Nat → Bool

/-- What `Display.drawSprite` answers to the call with this index (60 R243): true or false. -/
opaque Config.spriteErased : Nat → Bool

/-- What the Keyboard does while the CORE is held (45_timers_keyboard.md R201): no key yet, or a key it delivers; only a key of the
machine counts (`State.deliveredKey`). -/
opaque Config.keyDelivered : Nat → Option (BitVec sizes.vwidth)

end Sys2Proof
end

