-- ==== Sys2Proof/Word.lean ====
section
/-! DEFINITION. The words of the CORE (00_scope.md R7), every one in terms of the sizes of Config.lean. -/

namespace Sys2Proof

/-- `NREGS` (00_scope.md R6). -/
abbrev nregs : Nat := sizes.nregs

/-- `VWIDTH` (R6). -/
abbrev vwidth : Nat := sizes.vwidth

/-- `IWIDTH` (R6). -/
abbrev iwidth : Nat := sizes.iwidth

/-- `PCWIDTH` (R6). -/
abbrev pcwidth : Nat := sizes.pcwidth

/-- `IWORD` (R6). -/
abbrev iword : Nat := sizes.iword

/-- A byte: the value of a V register or a timer, and one memory cell (20_memory.md R60). -/
abbrev Byte := BitVec vwidth

/-- An instruction word (30_encoding.md R90). -/
abbrev Word := BitVec iword

/-- What pc and a stack entry hold (10_state.md R28, R33). -/
abbrev CodeAddr := BitVec pcwidth

/-- What I holds (10_state.md R24). -/
abbrev Index := BitVec iwidth

/-- A 4-bit register selector (10_state.md R20). -/
abbrev Reg := BitVec 4

/-- The 4-bit immediate N (30_encoding.md R92). -/
abbrev Nibble := BitVec 4

/-- The 12-bit immediate address NNN (30_encoding.md R92). -/
abbrev Addr12 := BitVec 12

/-- A selector always names one of the `NREGS` registers (10_state.md R20). -/
theorem reg_lt (r : Reg) : r.toNat < nregs := Nat.lt_of_lt_of_le r.isLt (by decide)

end Sys2Proof
end

