-- ==== Sys2Proof/Syntax.lean ====
section
/-! DEFINITION. The 34 operations of 30_encoding.md R96, in the order of its table, with the parameters the table names.
The set is closed (R104); there is no hint, no pseudo-instruction and no mode (R105, R107, R108). -/

namespace Sys2Proof

/-- One constructor per row of spec/opcode_table.json; the docstring of each gives its pattern. A selector is 4 bits and
an immediate has the width of its field, so every term is an instruction the machine can run (R20, R94). -/
inductive Instr where
  /-- 00E0 CLS -/
  | cls
  /-- 00EE RET -/
  | ret
  /-- 1NNN JP -/
  | jp (nnn : Addr12)
  /-- 2NNN CALL -/
  | call (nnn : Addr12)
  /-- 3XNN SE_IMM -/
  | seImm (x : Reg) (nn : Byte)
  /-- 4XNN SNE_IMM -/
  | sneImm (x : Reg) (nn : Byte)
  /-- 5XY0 SE_REG -/
  | seReg (x y : Reg)
  /-- 9XY0 SNE_REG -/
  | sneReg (x y : Reg)
  /-- 6XNN LD_IMM -/
  | ldImm (x : Reg) (nn : Byte)
  /-- 7XNN ADD_IMM -/
  | addImm (x : Reg) (nn : Byte)
  /-- 8XY0 LD_REG -/
  | ldReg (x y : Reg)
  /-- 8XY1 OR -/
  | orReg (x y : Reg)
  /-- 8XY2 AND -/
  | andReg (x y : Reg)
  /-- 8XY3 XOR -/
  | xorReg (x y : Reg)
  /-- 8XY4 ADD_REG -/
  | addReg (x y : Reg)
  /-- 8XY5 SUB -/
  | sub (x y : Reg)
  /-- 8XY6 SHR -/
  | shr (x y : Reg)
  /-- 8XY7 SUBN -/
  | subn (x y : Reg)
  /-- 8XYE SHL -/
  | shl (x y : Reg)
  /-- ANNN LD_I -/
  | ldI (nnn : Addr12)
  /-- BNNN JP_V0 -/
  | jpV0 (nnn : Addr12)
  /-- CXNN RND -/
  | rnd (x : Reg) (nn : Byte)
  /-- DXYN DRW -/
  | drw (x y : Reg) (n : Nibble)
  /-- EX9E SKP -/
  | skp (x : Reg)
  /-- EXA1 SKNP -/
  | sknp (x : Reg)
  /-- FX07 LD_VX_DT -/
  | ldVxDt (x : Reg)
  /-- FX0A LD_VX_KEY -/
  | ldVxKey (x : Reg)
  /-- FX15 LD_DT_VX -/
  | ldDtVx (x : Reg)
  /-- FX18 LD_ST_VX -/
  | ldStVx (x : Reg)
  /-- FX1E ADD_I -/
  | addI (x : Reg)
  /-- FX29 LD_FONT -/
  | ldFont (x : Reg)
  /-- FX33 LD_BCD -/
  | ldBcd (x : Reg)
  /-- FX55 ST_REGS -/
  | stRegs (x : Reg)
  /-- FX65 LD_REGS -/
  | ldRegs (x : Reg)
  deriving DecidableEq, Repr

end Sys2Proof
end

