-- ==== Sys2Proof/Decode.lean ====
section
/-! DEFINITION. instruction_decoder and operation_dispatcher (30_encoding.md R90 to R108): the bit fields of a word, the
two-level dispatch to one of 34 operations, the table of R96 itself, and the encoder written from that table. -/

namespace Sys2Proof

/-- The fields of R92, computed for every word whether or not its instruction uses them. -/
structure Fields where
  /-- opcode, bits 15:12 -/
  op : BitVec 4
  /-- X, bits 11:8 -/
  x : Reg
  /-- Y, bits 7:4 -/
  y : Reg
  /-- N, bits 3:0 -/
  n : Nibble
  /-- NN, bits 7:0 -/
  nn : Byte
  /-- NNN, bits 11:0 -/
  nnn : Addr12
  deriving DecidableEq, Repr

/-- The instruction_decoder (R91, R92): a total function of the word. -/
def fields (w : Word) : Fields :=
  { op := w.extractLsb' 12 4, x := w.extractLsb' 8 4, y := w.extractLsb' 4 4, n := w.extractLsb' 0 4,
    nn := w.extractLsb' 0 8, nnn := w.extractLsb' 0 12 }

/-- Family 0x0 (R98): the whole of nnn is compared. -/
def dispatchSystem (f : Fields) : Option Instr :=
  if f.nnn = 0x0E0 then some .cls
  else if f.nnn = 0x0EE then some .ret
  else none

/-- Families 0x5 and 0x9 (R102): only N = 0 is defined. -/
def dispatchRegSkip (f : Fields) (i : Instr) : Option Instr :=
  if f.n = 0 then some i else none

/-- Family 0x8 (R99), by the low nibble. -/
def dispatchAlu (f : Fields) : Option Instr :=
  if f.n = 0x0 then some (.ldReg f.x f.y)
  else if f.n = 0x1 then some (.orReg f.x f.y)
  else if f.n = 0x2 then some (.andReg f.x f.y)
  else if f.n = 0x3 then some (.xorReg f.x f.y)
  else if f.n = 0x4 then some (.addReg f.x f.y)
  else if f.n = 0x5 then some (.sub f.x f.y)
  else if f.n = 0x6 then some (.shr f.x f.y)
  else if f.n = 0x7 then some (.subn f.x f.y)
  else if f.n = 0xE then some (.shl f.x f.y)
  else none

/-- Family 0xE (R100), by the low byte. -/
def dispatchKeySkip (f : Fields) : Option Instr :=
  if f.nn = 0x9E then some (.skp f.x)
  else if f.nn = 0xA1 then some (.sknp f.x)
  else none

/-- Family 0xF (R101), by the low byte. -/
def dispatchMisc (f : Fields) : Option Instr :=
  if f.nn = 0x07 then some (.ldVxDt f.x)
  else if f.nn = 0x0A then some (.ldVxKey f.x)
  else if f.nn = 0x15 then some (.ldDtVx f.x)
  else if f.nn = 0x18 then some (.ldStVx f.x)
  else if f.nn = 0x1E then some (.addI f.x)
  else if f.nn = 0x29 then some (.ldFont f.x)
  else if f.nn = 0x33 then some (.ldBcd f.x)
  else if f.nn = 0x55 then some (.stRegs f.x)
  else if f.nn = 0x65 then some (.ldRegs f.x)
  else none

/-- The first level (R97): the opcode selects the family. -/
def dispatchFields (f : Fields) : Option Instr :=
  if f.op = 0x0 then dispatchSystem f
  else if f.op = 0x1 then some (.jp f.nnn)
  else if f.op = 0x2 then some (.call f.nnn)
  else if f.op = 0x3 then some (.seImm f.x f.nn)
  else if f.op = 0x4 then some (.sneImm f.x f.nn)
  else if f.op = 0x5 then dispatchRegSkip f (.seReg f.x f.y)
  else if f.op = 0x6 then some (.ldImm f.x f.nn)
  else if f.op = 0x7 then some (.addImm f.x f.nn)
  else if f.op = 0x8 then dispatchAlu f
  else if f.op = 0x9 then dispatchRegSkip f (.sneReg f.x f.y)
  else if f.op = 0xA then some (.ldI f.nnn)
  else if f.op = 0xB then some (.jpV0 f.nnn)
  else if f.op = 0xC then some (.rnd f.x f.nn)
  else if f.op = 0xD then some (.drw f.x f.y f.n)
  else if f.op = 0xE then dispatchKeySkip f
  else dispatchMisc f

/-- The operation_dispatcher (R95, R103): the operation of a word, or `none` where the machine raises
`InvalidInstruction(word)`. It reads no state (R108). -/
def dispatch (w : Word) : Option Instr := dispatchFields (fields w)

/-- The word of the two bytes of a fetch: the byte at the lower address is the high byte (20_memory.md R66). -/
def wordOfBytes (hi lo : Byte) : Word := hi ++ lo

/-- The two bytes of a word as memory holds them, lowest address first (R66). -/
def bytesOfWord (w : Word) : List Byte := [w.extractLsb' 8 8, w.extractLsb' 0 8]

/-- Why bytes are not an instruction. -/
inductive Reject where
  /-- The word matches none of the 34 encodings (R103). Raised by `decodeBytes`; the machine raises its own error for it. -/
  | invalidInstruction (word : Word)
  /-- Fewer than two bytes were given (R90: every instruction is one word of two bytes). -/
  | truncated (bytes : List Byte)
  deriving DecidableEq, Repr

/-- The decoder over bytes: total, the instruction and the bytes after it, or a named rejection (R90, R95). -/
def decodeBytes : List Byte → Except Reject (Instr × List Byte)
  | hi :: lo :: rest =>
    match dispatch (wordOfBytes hi lo) with
    | some i => .ok (i, rest)
    | none => .error (.invalidInstruction (wordOfBytes hi lo))
  | bytes => .error (.truncated bytes)

/-- The instruction whose bits are `w`, `nbits` of them given: the word is laid out as memory holds it and decoded. -/
def decodeTableWord (nbits w : Nat) : Option Instr :=
  match decodeBytes (bytesOfWord (BitVec.ofNat iword (w % 2 ^ nbits))) with
  | .ok (i, _) => some i
  | .error _ => none

/-- The encoder, written from the patterns of R96 and the field places of R92 and R93. -/
def encode : Instr → Word
  | .cls => 0x00E0
  | .ret => 0x00EE
  | .jp nnn => 0x1#4 ++ nnn
  | .call nnn => 0x2#4 ++ nnn
  | .seImm x nn => 0x3#4 ++ x ++ nn
  | .sneImm x nn => 0x4#4 ++ x ++ nn
  | .seReg x y => 0x5#4 ++ x ++ y ++ 0x0#4
  | .sneReg x y => 0x9#4 ++ x ++ y ++ 0x0#4
  | .ldImm x nn => 0x6#4 ++ x ++ nn
  | .addImm x nn => 0x7#4 ++ x ++ nn
  | .ldReg x y => 0x8#4 ++ x ++ y ++ 0x0#4
  | .orReg x y => 0x8#4 ++ x ++ y ++ 0x1#4
  | .andReg x y => 0x8#4 ++ x ++ y ++ 0x2#4
  | .xorReg x y => 0x8#4 ++ x ++ y ++ 0x3#4
  | .addReg x y => 0x8#4 ++ x ++ y ++ 0x4#4
  | .sub x y => 0x8#4 ++ x ++ y ++ 0x5#4
  | .shr x y => 0x8#4 ++ x ++ y ++ 0x6#4
  | .subn x y => 0x8#4 ++ x ++ y ++ 0x7#4
  | .shl x y => 0x8#4 ++ x ++ y ++ 0xE#4
  | .ldI nnn => 0xA#4 ++ nnn
  | .jpV0 nnn => 0xB#4 ++ nnn
  | .rnd x nn => 0xC#4 ++ x ++ nn
  | .drw x y n => 0xD#4 ++ x ++ y ++ n
  | .skp x => 0xE#4 ++ x ++ (0x9E : Byte)
  | .sknp x => 0xE#4 ++ x ++ (0xA1 : Byte)
  | .ldVxDt x => 0xF#4 ++ x ++ (0x07 : Byte)
  | .ldVxKey x => 0xF#4 ++ x ++ (0x0A : Byte)
  | .ldDtVx x => 0xF#4 ++ x ++ (0x15 : Byte)
  | .ldStVx x => 0xF#4 ++ x ++ (0x18 : Byte)
  | .addI x => 0xF#4 ++ x ++ (0x1E : Byte)
  | .ldFont x => 0xF#4 ++ x ++ (0x29 : Byte)
  | .ldBcd x => 0xF#4 ++ x ++ (0x33 : Byte)
  | .stRegs x => 0xF#4 ++ x ++ (0x55 : Byte)
  | .ldRegs x => 0xF#4 ++ x ++ (0x65 : Byte)

/-- The bytes of an instruction, lowest address first. -/
def encodeBytes (i : Instr) : List Byte := bytesOfWord (encode i)

/-- A row of the table of R96: the words `w` with `w &&& mask = pattern` select it. -/
structure Row where
  /-- the bits the row fixes -/
  mask : Word
  /-- their values -/
  pattern : Word
  deriving DecidableEq, Repr

/-- The row of R96 that stands for an operation. -/
def rowOf : Instr → Row
  | .cls => ⟨0xFFFF, 0x00E0⟩
  | .ret => ⟨0xFFFF, 0x00EE⟩
  | .jp _ => ⟨0xF000, 0x1000⟩
  | .call _ => ⟨0xF000, 0x2000⟩
  | .seImm _ _ => ⟨0xF000, 0x3000⟩
  | .sneImm _ _ => ⟨0xF000, 0x4000⟩
  | .seReg _ _ => ⟨0xF00F, 0x5000⟩
  | .sneReg _ _ => ⟨0xF00F, 0x9000⟩
  | .ldImm _ _ => ⟨0xF000, 0x6000⟩
  | .addImm _ _ => ⟨0xF000, 0x7000⟩
  | .ldReg _ _ => ⟨0xF00F, 0x8000⟩
  | .orReg _ _ => ⟨0xF00F, 0x8001⟩
  | .andReg _ _ => ⟨0xF00F, 0x8002⟩
  | .xorReg _ _ => ⟨0xF00F, 0x8003⟩
  | .addReg _ _ => ⟨0xF00F, 0x8004⟩
  | .sub _ _ => ⟨0xF00F, 0x8005⟩
  | .shr _ _ => ⟨0xF00F, 0x8006⟩
  | .subn _ _ => ⟨0xF00F, 0x8007⟩
  | .shl _ _ => ⟨0xF00F, 0x800E⟩
  | .ldI _ => ⟨0xF000, 0xA000⟩
  | .jpV0 _ => ⟨0xF000, 0xB000⟩
  | .rnd _ _ => ⟨0xF000, 0xC000⟩
  | .drw _ _ _ => ⟨0xF000, 0xD000⟩
  | .skp _ => ⟨0xF0FF, 0xE09E⟩
  | .sknp _ => ⟨0xF0FF, 0xE0A1⟩
  | .ldVxDt _ => ⟨0xF0FF, 0xF007⟩
  | .ldVxKey _ => ⟨0xF0FF, 0xF00A⟩
  | .ldDtVx _ => ⟨0xF0FF, 0xF015⟩
  | .ldStVx _ => ⟨0xF0FF, 0xF018⟩
  | .addI _ => ⟨0xF0FF, 0xF01E⟩
  | .ldFont _ => ⟨0xF0FF, 0xF029⟩
  | .ldBcd _ => ⟨0xF0FF, 0xF033⟩
  | .stRegs _ => ⟨0xF0FF, 0xF055⟩
  | .ldRegs _ => ⟨0xF0FF, 0xF065⟩

/-- The table of R96, its mask and match columns, row by row in its order. -/
def rows : List Row :=
  [⟨0xFFFF, 0x00E0⟩, ⟨0xFFFF, 0x00EE⟩, ⟨0xF000, 0x1000⟩, ⟨0xF000, 0x2000⟩, ⟨0xF000, 0x3000⟩,
   ⟨0xF000, 0x4000⟩, ⟨0xF00F, 0x5000⟩, ⟨0xF00F, 0x9000⟩, ⟨0xF000, 0x6000⟩, ⟨0xF000, 0x7000⟩] ++
  [⟨0xF00F, 0x8000⟩, ⟨0xF00F, 0x8001⟩, ⟨0xF00F, 0x8002⟩, ⟨0xF00F, 0x8003⟩, ⟨0xF00F, 0x8004⟩,
   ⟨0xF00F, 0x8005⟩, ⟨0xF00F, 0x8006⟩, ⟨0xF00F, 0x8007⟩, ⟨0xF00F, 0x800E⟩] ++
  [⟨0xF000, 0xA000⟩, ⟨0xF000, 0xB000⟩, ⟨0xF000, 0xC000⟩, ⟨0xF000, 0xD000⟩, ⟨0xF0FF, 0xE09E⟩,
   ⟨0xF0FF, 0xE0A1⟩, ⟨0xF0FF, 0xF007⟩, ⟨0xF0FF, 0xF00A⟩, ⟨0xF0FF, 0xF015⟩, ⟨0xF0FF, 0xF018⟩] ++
  [⟨0xF0FF, 0xF01E⟩, ⟨0xF0FF, 0xF029⟩, ⟨0xF0FF, 0xF033⟩, ⟨0xF0FF, 0xF055⟩, ⟨0xF0FF, 0xF065⟩]

end Sys2Proof
end

