-- ==== Sys2Proof/Machine/Flags.lean ====
section
/-! DEFINITION. Every flag computation of the spec (43_alu.md R161, R172): each flag from the exact integers of the operands
before the instruction. -/

namespace Sys2Proof.Machine

/-- The byte VF receives for a flag: exactly 0 or 1 (10_state.md R22). -/
def flagByte (f : Bool) : Byte := if f then 1 else 0

/-- Carry of an addition: the raw sum exceeds the largest byte, 255 (R161, 43_alu.md R167). -/
def carry (a b : Byte) : Bool := decide (2 ^ vwidth ≤ a.toNat + b.toNat)

/-- Not-borrow of `a - b`: `a >= b`, equality included (R161, R168, R170). -/
def notBorrow (a b : Byte) : Bool := decide (a.toNat ≥ b.toNat)

/-- The bit a right shift shifts out: bit 0 (R161, R169). -/
def shiftedOutRight (a : Byte) : Bool := a.getLsbD 0

/-- The bit a left shift shifts out: the top bit, bit 7 (R161, R171). -/
def shiftedOutLeft (a : Byte) : Bool := a.getLsbD (vwidth - 1)

end Sys2Proof.Machine
end

