-- ==== Sys2Proof/Machine/Alu.lean ====
section
/-! DEFINITION. alu_8bit (43_alu.md R160, R161): a pure function of two bytes and a function select. -/

namespace Sys2Proof.Machine

/-- The function select of R160. -/
inductive AluFn where
  /-- 8XY0 -/
  | passB
  /-- 8XY1 -/
  | or
  /-- 8XY2 -/
  | and
  /-- 8XY3 -/
  | xor
  /-- 8XY4, and 7XNN with the flag discarded -/
  | add
  /-- 8XY5 and 8XY7 -/
  | sub
  /-- 8XY6 -/
  | shr
  /-- 8XYE -/
  | shl
  deriving DecidableEq, Repr

/-- The result column of R160: computed exactly, then reduced mod 2^VWIDTH (256). -/
def aluResult (fn : AluFn) (a b : Byte) : Byte :=
  match fn with
  | .passB => b
  | .or => a ||| b
  | .and => a &&& b
  | .xor => a ^^^ b
  | .add => BitVec.ofNat vwidth (a.toNat + b.toNat)
  | .sub => BitVec.ofInt vwidth ((a.toNat : Int) - (b.toNat : Int))
  | .shr => BitVec.ofNat vwidth (a.toNat / 2)
  | .shl => BitVec.ofNat vwidth (a.toNat * 2)

/-- The flag column of R160; `none` for the functions that have no flag. -/
def aluFlag (fn : AluFn) (a b : Byte) : Option Bool :=
  match fn with
  | .passB => none
  | .or => none
  | .and => none
  | .xor => none
  | .add => some (carry a b)
  | .sub => some (notBorrow a b)
  | .shr => some (shiftedOutRight a)
  | .shl => some (shiftedOutLeft a)

end Sys2Proof.Machine
end

