-- ==== Sys2Proof/Machine/Params.lean ====
section
/-! DEFINITION. The configuration the reset machine is given: the numbers of 00_scope.md R6, and a choice where the spec leaves a
parameter OPEN. -/

namespace Sys2Proof.Machine

/-- The number of glyphs of the font: digits 0 to F (20_memory.md R71). -/
def glyphs : Nat := 16

/-- The customary font, glyph by glyph (93 G1). PRESUMED: the spec marks it general knowledge; log entry 5. -/
def suggestedFont : List Byte :=
  [0xF0, 0x90, 0x90, 0x90, 0xF0] ++ [0x20, 0x60, 0x20, 0x20, 0x70] ++
  [0xF0, 0x10, 0xF0, 0x80, 0xF0] ++ [0xF0, 0x10, 0xF0, 0x10, 0xF0] ++
  [0x90, 0x90, 0xF0, 0x10, 0x10] ++ [0xF0, 0x80, 0xF0, 0x10, 0xF0] ++
  [0xF0, 0x80, 0xF0, 0x90, 0xF0] ++ [0xF0, 0x10, 0x20, 0x40, 0x40] ++
  [0xF0, 0x90, 0xF0, 0x90, 0xF0] ++ [0xF0, 0x90, 0xF0, 0x10, 0xF0] ++
  [0xF0, 0x90, 0xF0, 0x90, 0x90] ++ [0xE0, 0x90, 0xE0, 0x90, 0xE0] ++
  [0xF0, 0x80, 0x80, 0x80, 0xF0] ++ [0xE0, 0x90, 0x90, 0x90, 0xE0] ++
  [0xF0, 0x80, 0xF0, 0x80, 0xF0] ++ [0xF0, 0x80, 0xF0, 0x80, 0x80]

/-- The configuration of `State.reset`: the source's CAPACITY, ORIGIN, STACK_DEPTH and NKEYS (log entry 8), the spec's suggested
font (PRESUMED, unsafe: log entry 5), its default `SHIFT_SRC = X` (log entry 9) and its default `TIMER_TICK = absent` (log
entry 23). -/
def defaultConfig : Config :=
  { capacity := 4095, origin := 0x200, stackDepth := 16, nkeys := 16,
    fontBase := 0x000, glyphBytes := 5, fontData := suggestedFont, shiftSrc := .x, timerTick := .absent }

end Sys2Proof.Machine
end

