-- ==== Sys2Proof/Machine/Memory.lean ====
section
/-! DEFINITION. The byte store of memory_interface (20_memory.md R60 to R63) as plain data: a list of (address, byte) pairs in
one canonical form, addresses strictly rising and no pair listed that an unlisted address would read as anyway. -/

namespace Sys2Proof.Machine

/-- The memory array `Mem[0..CAPACITY-1]` (10_state.md R44): the cells that do not hold the cleared value. -/
abbrev Memory := List Host.Cell

/-- What an unlisted address reads as: the value of cleared memory, 0x00 (20_memory.md R79, 10_state.md R41; the spec's own
choice 92 D15, log entry 7). -/
def clearedByte : Byte := 0x00

/-- The byte at an address. -/
def Memory.read : Memory → Nat → Byte
  | [], _ => clearedByte
  | (a, b) :: m, addr => if addr = a then b else Memory.read m addr

/-- Memory with one byte replaced; writing the cleared value removes the pair. -/
def Memory.write : Memory → Nat → Byte → Memory
  | [], addr, v => if v = clearedByte then [] else [(addr, v)]
  | (a, b) :: m, addr, v =>
    if addr < a then (if v = clearedByte then (a, b) :: m else (addr, v) :: (a, b) :: m)
    else if addr = a then (if v = clearedByte then m else (addr, v) :: m)
    else (a, b) :: Memory.write m addr v

/-- The `n` bytes at `addr`, ascending (R62). -/
def Memory.readBytes (m : Memory) (addr : Nat) : Nat → List Byte
  | 0 => []
  | n + 1 => Memory.read m addr :: Memory.readBytes m (addr + 1) n

/-- Memory with the bytes of a list written at `addr`, ascending (R63). -/
def Memory.writeBytes (m : Memory) (addr : Nat) : List Byte → Memory
  | [] => m
  | v :: vs => Memory.writeBytes (Memory.write m addr v) (addr + 1) vs

/-- The canonical form from address `lo` on: addresses strictly rising from `lo`, each inside memory (R60), no cell that
holds the cleared value. -/
def Memory.wfFrom (capacity : Nat) : Nat → Memory → Bool
  | _, [] => true
  | lo, (a, b) :: m =>
    decide (lo ≤ a) && decide (a < capacity) && decide (b ≠ clearedByte) && Memory.wfFrom capacity (a + 1) m

/-- The canonical form of a whole memory of `capacity` bytes. -/
def Memory.wf (capacity : Nat) (m : Memory) : Bool := Memory.wfFrom capacity 0 m

/-- An access of `len` bytes at `addr` is admitted (R61): both bounds, in unbounded integers, also for `len = 0`. -/
def admitted (capacity addr len : Nat) : Bool := decide (addr < capacity) && decide (addr + len ≤ capacity)

end Sys2Proof.Machine
end

