-- ==== Sys2Proof/Machine/State.lean ====
section
/-! DEFINITION. The state of the CORE (10_state.md, 20_memory.md R44), the outcomes of a step, the state after power-on and
the state after reset. Plain data throughout. -/

namespace Sys2Proof.Machine

/-- The four errors of the hardware with what they record (60_exceptions.md R220). They are part of the state (`err`): an
instruction that raises one goes to a next state (R232). -/
inductive Error where
  /-- The fetched word matches none of the 34 encodings (R222). -/
  | invalidInstruction (word : Word)
  /-- An access not admitted; the payload is its start address (R223, 20_memory.md R65). -/
  | invalidAddress (address : CodeAddr)
  /-- 2NNN with `STACK_DEPTH` entries on the stack (R224). -/
  | stackOverflow
  /-- 00EE with an empty stack (R225). -/
  | stackUnderflow
  deriving DecidableEq, Repr

/-- `run_state` (10_state.md R36, 70_reset_and_hazards.md R260). -/
inductive RunState where
  /-- No schedule: after power-on and after stop. -/
  | stopped
  /-- Cycles are performed one after another. -/
  | running
  /-- An FX0A waits for a key; `x` is its pending selector (R38(b)). -/
  | keyWait (x : Reg)
  /-- An error cancelled the schedule. -/
  | halted
  deriving DecidableEq, Repr

/-- A call the CORE makes to a collaborator (60_exceptions.md R243 to R245). -/
inductive Call where
  /-- `Display.clear()` -/
  | clear
  /-- `Display.drawSprite(bytes, x, y)` -/
  | drawSprite (bytes : List Byte) (x y : Byte)
  /-- `Keyboard.isPressed(key)` -/
  | isPressed (key : Byte)
  /-- `Keyboard.waitForKeyPress()` -/
  | waitForKeyPress
  /-- `draw8()` -/
  | draw8
  deriving DecidableEq, Repr

/-- What the outside does to the CORE in one slot between cycles (60_exceptions.md R231, 70_reset_and_hazards.md R268 to R272). -/
inductive HostEvent where
  /-- Nothing: the CORE makes its own move. -/
  | idle
  /-- start (R269) -/
  | start
  /-- reset (R268) -/
  | reset
  /-- stop (R270) -/
  | stop
  /-- a tick of the timer agent, if there is one (60 R242) -/
  | tick
  /-- a new image is handed to the scheduler for the next reset (R272) -/
  | supplyRom (image : List Byte)
  deriving DecidableEq, Repr

/-- The state of the machine. Every statement about all states speaks of all configurations, all schedules of the host and
all pasts. -/
structure State where
  /-- V0..VF (10_state.md R20); VF is V[15], the flag (R22). -/
  v : Vector Byte nregs
  /-- I (R24). -/
  index : Index
  /-- DT (R25). -/
  dt : Byte
  /-- ST (R26). -/
  st : Byte
  /-- The program counter (R28). -/
  pc : CodeAddr
  /-- The call stack, most recent entry first; its length is `depth` (R33). -/
  stack : List CodeAddr
  /-- The memory (R44). -/
  mem : Memory
  /-- `run_state` (R36), with `pending_x` (R38(b)). -/
  runState : RunState
  /-- The error latch (R37). -/
  err : Option Error
  /-- The ROM image the scheduler retains for the next reset (R38(c)). -/
  rom : List Byte
  /-- The parameters and options (00_scope.md R6); no step changes them. -/
  cfg : Config
  /-- The MODEL's own: what the host does from now on, one slot a step; after the last slot, nothing (log entry 3). -/
  inputs : List HostEvent
  /-- The MODEL's own: the calls sent to the collaborators, oldest first (log entry 4). -/
  calls : List Call
  /-- The MODEL's own: the index of the next answer of a collaborator (log entry 1). -/
  fresh : Nat
  deriving DecidableEq, Repr

/-- Where a step does not happen: the machine has no enabled step and the host's list of events is at its end. Raised by the
step only, never by an instruction. -/
inductive Fault where
  /-- STOPPED and nothing more comes from the host (70_reset_and_hazards.md R260). Safe: the run ends where the hardware waits. -/
  | stopped
  /-- HALTED and nothing more comes from the host (60_exceptions.md R234); it surfaces the latched error (R233). Safe: the run
  ends where the hardware stays halted. -/
  | halted (err : Option Error)
  deriving DecidableEq, Repr

/-- The situations the spec gives no meaning (60_exceptions.md R229). -/
inductive Refusal where
  /-- An instruction this model gives no meaning: none is left, no arm raises it. Safe. -/
  | notModelled (mnemonic : String)
  /-- EX9E or EXA1 with VX no key of 0..NKEYS-1 (R229, 92 D10). Raised by SKP and SKNP. Safe: the run is refused where the hardware does
  something unknown. -/
  | keyIndexOutOfRange (vx : Byte)
  /-- FX29 with VX > 15 (R229, 92 D10). Raised by LD_FONT. Safe, for the same reason. -/
  | digitOutOfRange (vx : Byte)
  deriving DecidableEq, Repr

/-- What a step or an instruction answers. -/
abbrev Answer := Host.Outcome State Fault Refusal

/-- The machine right after power-on (70_reset_and_hazards.md R267): initial values, memory cleared, no font and no program,
STOPPED. The configuration, the ROM and the host's events are arguments. -/
def State.powerOn (cfg : Config) (rom : List Byte) (inputs : List HostEvent) : State :=
  { v := Vector.replicate nregs 0, index := 0, dt := 0, st := 0, pc := BitVec.ofNat pcwidth cfg.origin, stack := [], mem := [],
    runState := .stopped, err := none, rom := rom, cfg := cfg, inputs := inputs, calls := [], fresh := 0 }

/-- The machine right after reset (10_state.md R41) with the configuration of `defaultConfig`, no ROM and a host that does
nothing more: the font is in memory, everything else is zero, RUNNING. Log entries 1 and 3 to 6 name what is the model's here. -/
def State.reset : State :=
  { State.powerOn defaultConfig [] [] with
    mem := Memory.writeBytes [] defaultConfig.fontBase defaultConfig.fontData
    runState := .running }

end Sys2Proof.Machine
end

