-- ==== Sys2Proof/Machine/Ops.lean ====
section
/-! DEFINITION. The primitives of 00_scope.md R8 over the state: registers, checked memory, the stack, the calls to the
collaborators, raising an error, and the reset sequence that alone recovers from one. -/

namespace Sys2Proof.Machine

/-! Registers (10_state.md R20 to R23). -/

/-- `V[r]`. -/
def State.getV (s : State) (r : Reg) : Byte := s.v[r.toNat]'(reg_lt r)

/-- `V[r] <- b`. -/
def State.setV (s : State) (r : Reg) (b : Byte) : State := { s with v := s.v.set r.toNat b (reg_lt r) }

/-- The number of the flag register VF (R22). -/
def vf : Reg := 0xF

/-- `V[15] <- f` (R22, 43_alu.md R162). -/
def State.setFlag (s : State) (f : Bool) : State := s.setV vf (flagByte f)

/-- `pc <- target` (R32). A target is not checked when it is written (40_control_flow.md R130). -/
def State.setPc (s : State) (target : CodeAddr) : State := { s with pc := target }

/-- `I <- a` (R24): any 16-bit value may be held. -/
def State.setIndex (s : State) (a : Index) : State := { s with index := a }

/-! Taking an error, and what recovers from it. -/

/-- `raise e` (60_exceptions.md R232): the latch takes the error, the scheduler halts, nothing else changes. -/
def raise (e : Error) (s : State) : Answer := .next { s with err := some e, runState := .halted }

/-- The cause code of an error (60_exceptions.md R221). The numbers are the spec's own (92 D18) and nothing depends on them. -/
def Error.code : Error → Nat
  | .invalidInstruction _ => 1
  | .invalidAddress _ => 2
  | .stackOverflow => 3
  | .stackUnderflow => 4

/-- The status value of the latch (60_exceptions.md R221): 0 for none, else the cause code. -/
def State.errCode (s : State) : Nat :=
  match s.err with
  | none => 0
  | some e => e.code

/-- `Reset()` (70_reset_and_hazards.md R268), the only way out of HALTED (60_exceptions.md R235): registers, pc, stack and
memory at their initial values, the font and then the ROM written, RUNNING; a ROM that does not fit halts the machine with
nothing of it written (20_memory.md R72). A pending FX0A is abandoned. The configuration, the ROM and the model's own
fields stay. -/
def resetMachine (s : State) : State :=
  let cleared : State :=
    { s with v := Vector.replicate nregs 0, index := 0, dt := 0, st := 0, pc := BitVec.ofNat pcwidth s.cfg.origin,
             stack := [], mem := [], err := none, runState := .running }
  if admitted s.cfg.capacity s.cfg.fontBase s.cfg.fontData.length then
    let font := Memory.writeBytes [] s.cfg.fontBase s.cfg.fontData
    if admitted s.cfg.capacity s.cfg.origin s.rom.length then
      { cleared with mem := Memory.writeBytes font s.cfg.origin s.rom }
    else
      { cleared with mem := font, err := some (.invalidAddress (BitVec.ofNat pcwidth s.cfg.origin)), runState := .halted }
  else
    { cleared with err := some (.invalidAddress (BitVec.ofNat pcwidth s.cfg.fontBase)), runState := .halted }

/-! Checked memory (20_memory.md R61 to R63), through an address of any width: pc or I. The address an error records is one that pc
could hold (R65). -/

/-- `MemRead(addr, n)` (R62). -/
def State.memRead (s : State) {w : Nat} (addr : BitVec w) (n : Nat) : Except Error (List Byte) :=
  if admitted s.cfg.capacity addr.toNat n then .ok (Memory.readBytes s.mem addr.toNat n)
  else .error (.invalidAddress (addr.setWidth pcwidth))

/-- `MemWrite(addr, n, v)` with n the length of v (R63): the whole range is checked before any byte is written. -/
def State.memWrite (s : State) {w : Nat} (addr : BitVec w) (bytes : List Byte) : Except Error State :=
  if admitted s.cfg.capacity addr.toNat bytes.length then .ok { s with mem := Memory.writeBytes s.mem addr.toNat bytes }
  else .error (.invalidAddress (addr.setWidth pcwidth))

/-! The call stack (10_state.md R33 to R35). -/

/-- `Push(a)` (R34). -/
def State.push (s : State) (a : CodeAddr) : Except Error State :=
  if s.stack.length < s.cfg.stackDepth then .ok { s with stack := a :: s.stack } else .error .stackOverflow

/-- `Pop()` (R35): the most recent entry and the state without it. -/
def State.pop (s : State) : Except Error (CodeAddr × State) :=
  match s.stack with
  | [] => .error .stackUnderflow
  | a :: rest => .ok (a, { s with stack := rest })

/-! The collaborators (60_exceptions.md R243 to R245). A call is recorded; a call with an answer takes the next free value. -/

/-- A call that has no answer, or whose answer comes later. -/
def State.call (s : State) (c : Call) : State := { s with calls := s.calls ++ [c] }

/-- A call that is answered at once: the answer with index `fresh` is used up. -/
def State.ask (s : State) (c : Call) : State := { s.call c with fresh := s.fresh + 1 }

/-- What `drawSprite` answers (R243): false for an empty sprite by the contract (46_display.md R212), else a free value. -/
def State.erasedAnswer (s : State) (bytes : List Byte) : Bool :=
  if bytes.length = 0 then false else Config.spriteErased s.fresh

/-- What `isPressed` answers (R244): a free value. -/
def State.pressedAnswer (s : State) : Bool := Config.keyPressed s.fresh

/-- What `waitForKeyPress` does in one moment of a hold (R244): no key yet, or a key 0..NKEYS-1, a free value. -/
def State.deliveredKey (s : State) : Option Byte :=
  match Config.keyDelivered s.fresh with
  | none => none
  | some key => if key.toNat < s.cfg.nkeys then some key else none

/-- What `draw8` answers (R245): a free value. -/
def State.randomAnswer (s : State) : Byte := Config.randomByte s.fresh

end Sys2Proof.Machine
end

