-- ==== Sys2Proof/Machine/Operands.lean ====
section
/-! DEFINITION. The operand forms of the spec and the shapes several instructions share: immediates, the skip, the
register result with and without a flag, the block of registers, the decimal digits, the glyph address. -/

namespace Sys2Proof.Machine

/-- NNN as a value of pc (30_encoding.md R94). -/
def addrOf (nnn : Addr12) : CodeAddr := nnn.setWidth pcwidth

/-- The skip (41_skips.md R140): a second increment of pc if the condition holds, else nothing. -/
def State.skipIf (s : State) (c : Bool) : State := if c then s.setPc (s.pc + 2) else s

/-- A result for VX and, where the function has one, the flag written last (43_alu.md R162). -/
def State.writeAlu (s : State) (x : Reg) (fn : AluFn) (a b : Byte) : State :=
  match aluFlag fn a b with
  | none => s.setV x (aluResult fn a b)
  | some f => (s.setV x (aluResult fn a b)).setFlag f

/-- The value 8XY6 and 8XYE shift (43_alu.md R169, R171): VX or VY, by `SHIFT_SRC`. -/
def State.shiftOperand (s : State) (x y : Reg) : Byte :=
  match s.cfg.shiftSrc with
  | .x => s.getV x
  | .y => s.getV y

/-- V0..VX, in order: the bytes FX55 stores (44_index_memory.md R185). -/
def State.regBlock (s : State) (x : Reg) : List Byte := s.v.toList.take (x.toNat + 1)

/-- The registers with `bytes` written to V[k], V[k+1], ... (44_index_memory.md R186). -/
def loadBlock (v : Vector Byte nregs) (k : Nat) : List Byte → Vector Byte nregs
  | [] => v
  | b :: bs => loadBlock (v.setIfInBounds k b) (k + 1) bs

/-- Hundreds, tens and ones of a byte, a digit a byte (44_index_memory.md R184). -/
def bcdDigits (b : Byte) : List Byte :=
  [BitVec.ofNat vwidth (b.toNat / 100), BitVec.ofNat vwidth (b.toNat / 10 % 10), BitVec.ofNat vwidth (b.toNat % 10)]

/-- The address of the first byte of glyph d (44_index_memory.md R183); I holds its 16 low bits (log entry 26). -/
def glyphAddress (c : Config) (d : Byte) : Index := BitVec.ofNat iwidth (c.fontBase + c.glyphBytes * d.toNat)

/-- A key operand in 0..NKEYS-1 (41_skips.md R145). -/
def inKeyRange (c : Config) (b : Byte) : Bool := decide (b.toNat < c.nkeys)

/-- A digit operand: one of the glyphs 0 to F (44_index_memory.md R183). -/
def inDigitRange (b : Byte) : Bool := decide (b.toNat < glyphs)

end Sys2Proof.Machine
end

