-- ==== Sys2Proof/Machine/ControlFlow.lean ====
section
/-! DEFINITION. The control_flow_unit (40_control_flow.md): RET, JP, CALL, JP_V0. On entry pc is the address of the
instruction plus 2 (10_state.md R28). -/

namespace Sys2Proof.Machine

/-- 00EE (R131). -/
def execRet (s : State) : Answer :=
  match s.pop with
  | .ok (t, s') => .next (s'.setPc t)
  | .error e => raise e s

/-- 1NNN (R132). -/
def execJp (nnn : Addr12) (s : State) : Answer := .next (s.setPc (addrOf nnn))

/-- 2NNN (R133). -/
def execCall (nnn : Addr12) (s : State) : Answer :=
  match s.push s.pc with
  | .ok s' => .next (s'.setPc (addrOf nnn))
  | .error e => raise e s

/-- BNNN (R134): always V0, a 16-bit sum. -/
def execJpV0 (nnn : Addr12) (s : State) : Answer := .next (s.setPc ((s.getV 0).setWidth pcwidth + addrOf nnn))

end Sys2Proof.Machine
end

