-- ==== Sys2Proof/Machine/DisplayOps.lean ====
section
/-! DEFINITION. Display operations (46_display.md): CLS, DRW. The Display itself is outside the CORE (00_scope.md R5). -/

namespace Sys2Proof.Machine

/-- 00E0 (R210). -/
def execCls (s : State) : Answer := .next (s.call .clear)

/-- DXYN (R212): the sprite is read first, the coordinates before VF is written. -/
def execDrw (x y : Reg) (n : Nibble) (s : State) : Answer :=
  match s.memRead s.index n.toNat with
  | .ok bytes => .next ((s.ask (.drawSprite bytes (s.getV x) (s.getV y))).setFlag (s.erasedAnswer bytes))
  | .error e => raise e s

end Sys2Proof.Machine
end

