-- ==== Sys2Proof/Machine/IndexMemory.lean ====
section
/-! DEFINITION. Index register and memory operations (44_index_memory.md): LD_I, ADD_I, LD_FONT, LD_BCD, ST_REGS, LD_REGS. None
of the memory operations changes I (R180, 92 D8: log entry 11). -/

namespace Sys2Proof.Machine

/-- ANNN (R181): NNN as a value of I. -/
def execLdI (nnn : Addr12) (s : State) : Answer := .next (s.setIndex (nnn.setWidth iwidth))

/-- FX1E (R182): mod 65536, no flag. -/
def execAddI (x : Reg) (s : State) : Answer := .next (s.setIndex (s.index + (s.getV x).setWidth iwidth))

/-- FX29 (R183). -/
def execLdFont (x : Reg) (s : State) : Answer :=
  if inDigitRange (s.getV x) then .next (s.setIndex (glyphAddress s.cfg (s.getV x)))
  else .refused (.digitOutOfRange (s.getV x))

/-- FX33 (R184). -/
def execLdBcd (x : Reg) (s : State) : Answer :=
  match s.memWrite s.index (bcdDigits (s.getV x)) with
  | .ok s' => .next s'
  | .error e => raise e s

/-- FX55 (R185). -/
def execStRegs (x : Reg) (s : State) : Answer :=
  match s.memWrite s.index (s.regBlock x) with
  | .ok s' => .next s'
  | .error e => raise e s

/-- FX65 (R186). -/
def execLdRegs (x : Reg) (s : State) : Answer :=
  match s.memRead s.index (x.toNat + 1) with
  | .ok bytes => .next { s with v := loadBlock s.v 0 bytes }
  | .error e => raise e s

end Sys2Proof.Machine
end

