-- ==== Sys2Proof/Machine/RegImm.lean ====
section
/-! DEFINITION. The register-immediate operations (42_register_immediate.md): LD_IMM, ADD_IMM, RND. -/

namespace Sys2Proof.Machine

/-- 6XNN (R150). -/
def execLdImm (x : Reg) (nn : Byte) (s : State) : Answer := .next (s.setV x nn)

/-- 7XNN (R151): the alu's sum with its flag discarded. -/
def execAddImm (x : Reg) (nn : Byte) (s : State) : Answer := .next (s.setV x (aluResult .add (s.getV x) nn))

/-- CXNN (R152): a random byte, masked. -/
def execRnd (x : Reg) (nn : Byte) (s : State) : Answer := .next ((s.ask .draw8).setV x (s.randomAnswer &&& nn))

end Sys2Proof.Machine
end

