-- ==== Sys2Proof/Machine/RegReg.lean ====
section
/-! DEFINITION. The register-register operations (43_alu.md): LD_REG, OR, AND, XOR, ADD_REG, SUB, SHR, SUBN, SHL. -/

namespace Sys2Proof.Machine

/-- 8XY0 (R163). -/
def execLdReg (x y : Reg) (s : State) : Answer := .next (s.writeAlu x .passB (s.getV x) (s.getV y))

/-- 8XY1 (R164). -/
def execOr (x y : Reg) (s : State) : Answer := .next (s.writeAlu x .or (s.getV x) (s.getV y))

/-- 8XY2 (R165). -/
def execAnd (x y : Reg) (s : State) : Answer := .next (s.writeAlu x .and (s.getV x) (s.getV y))

/-- 8XY3 (R166). -/
def execXor (x y : Reg) (s : State) : Answer := .next (s.writeAlu x .xor (s.getV x) (s.getV y))

/-- 8XY4 (R167). -/
def execAddReg (x y : Reg) (s : State) : Answer := .next (s.writeAlu x .add (s.getV x) (s.getV y))

/-- 8XY5 (R168): VX - VY. -/
def execSub (x y : Reg) (s : State) : Answer := .next (s.writeAlu x .sub (s.getV x) (s.getV y))

/-- 8XY6 (R169). -/
def execShr (x y : Reg) (s : State) : Answer := .next (s.writeAlu x .shr (s.shiftOperand x y) (s.getV y))

/-- 8XY7 (R170): VY - VX, into VX. -/
def execSubn (x y : Reg) (s : State) : Answer := .next (s.writeAlu x .sub (s.getV y) (s.getV x))

/-- 8XYE (R171). -/
def execShl (x y : Reg) (s : State) : Answer := .next (s.writeAlu x .shl (s.shiftOperand x y) (s.getV y))

end Sys2Proof.Machine
end

