-- ==== Sys2Proof/Machine/Skips.lean ====
section
/-! DEFINITION. The conditional skips (41_skips.md): SE_IMM, SNE_IMM, SE_REG, SNE_REG, SKP, SKNP. -/

namespace Sys2Proof.Machine

/-- 3XNN (R141). -/
def execSeImm (x : Reg) (nn : Byte) (s : State) : Answer := .next (s.skipIf (s.getV x == nn))

/-- 4XNN (R142). -/
def execSneImm (x : Reg) (nn : Byte) (s : State) : Answer := .next (s.skipIf (s.getV x != nn))

/-- 5XY0 (R143). -/
def execSeReg (x y : Reg) (s : State) : Answer := .next (s.skipIf (s.getV x == s.getV y))

/-- 9XY0 (R144). -/
def execSneReg (x y : Reg) (s : State) : Answer := .next (s.skipIf (s.getV x != s.getV y))

/-- What EX9E and EXA1 share (R145, R146): the key index is checked, the Keyboard is asked, and the skip is taken if the
answer is `wanted`. -/
def skipOnKey (x : Reg) (wanted : Bool) (s : State) : Answer :=
  if inKeyRange s.cfg (s.getV x) then
    .next ((s.ask (.isPressed (s.getV x))).skipIf (s.pressedAnswer == wanted))
  else .refused (.keyIndexOutOfRange (s.getV x))

/-- EX9E (R145). -/
def execSkp (x : Reg) (s : State) : Answer := skipOnKey x true s

/-- EXA1 (R146). -/
def execSknp (x : Reg) (s : State) : Answer := skipOnKey x false s

end Sys2Proof.Machine
end

