-- ==== Sys2Proof/Machine/TimersKeyboard.lean ====
section
/-! DEFINITION. Timer register moves and the key wait (45_timers_keyboard.md): LD_VX_DT, LD_VX_KEY, LD_DT_VX, LD_ST_VX. The
second half of LD_VX_KEY, the delivery of the key, is `deliverKey` in Machine/Lifecycle.lean. -/

namespace Sys2Proof.Machine

/-- FX07 (R200). -/
def execLdVxDt (x : Reg) (s : State) : Answer := .next (s.setV x s.dt)

/-- FX0A (R201), its beginning: the wait is asked for and the CORE is held; VX is written when the key comes. -/
def execLdVxKey (x : Reg) (s : State) : Answer := .next { s.call .waitForKeyPress with runState := .keyWait x }

/-- FX15 (R202). -/
def execLdDtVx (x : Reg) (s : State) : Answer := .next { s with dt := s.getV x }

/-- FX18 (R203). -/
def execLdStVx (x : Reg) (s : State) : Answer := .next { s with st := s.getV x }

end Sys2Proof.Machine
end

