-- ==== Sys2Proof/Machine/Lifecycle.lean ====
section
/-! DEFINITION. What the outside does to the CORE between cycles or in a hold (60_exceptions.md R231, 70_reset_and_hazards.md
R260, R268 to R272), and the delivery of the key that ends an FX0A (45_timers_keyboard.md R201). -/

namespace Sys2Proof.Machine

/-- start (70 R269): the reset sequence, accepted in STOPPED only. -/
def startMachine (s : State) : State :=
  match s.runState with
  | .stopped => resetMachine s
  | .running => s
  | .keyWait _ => s
  | .halted => s

/-- stop (70 R270): the schedule is cancelled and a pending FX0A abandoned; no effect in STOPPED and HALTED (70 R260). -/
def stopMachine (s : State) : State :=
  match s.runState with
  | .running => { s with runState := .stopped }
  | .keyWait _ => { s with runState := .stopped }
  | .stopped => s
  | .halted => s

/-- A timer one tick later: it stops at zero (60 R242). -/
def tickTimer (t : Byte) : Byte := if t = 0 then 0 else t - 1

/-- A tick of the timer agent (60 R242), in every run state; with `TIMER_TICK = absent` there is no such agent and nothing
happens. -/
def tickMachine (s : State) : State :=
  match s.cfg.timerTick with
  | .absent => s
  | .present => { s with dt := tickTimer s.dt, st := tickTimer s.st }

/-- The effect of one event of the host. -/
def hostEffect (e : HostEvent) (s : State) : State :=
  match e with
  | .idle => s
  | .start => startMachine s
  | .reset => resetMachine s
  | .stop => stopMachine s
  | .tick => tickMachine s
  | .supplyRom image => { s with rom := image }

/-- The completion of FX0A with selector `x` (45 R201): the key goes to VX, RUNNING. -/
def deliverKey (x : Reg) (key : Byte) (s : State) : State := { s.setV x key with runState := .running }

/-- One moment of a hold (45 R201): either no key comes and the CORE stays held, or the Keyboard delivers one. -/
def heldMove (x : Reg) (s : State) : State :=
  match s.deliveredKey with
  | none => { s with fresh := s.fresh + 1 }
  | some key => deliverKey x key { s with fresh := s.fresh + 1 }

end Sys2Proof.Machine
end

