-- ==== Sys2Proof/Machine/Cycle.lean ====
section
/-! DEFINITION. The cycle of cycle_scheduler_fsm (70_reset_and_hazards.md R262) and the step built on it: the host's next slot
first, then the CORE's own move. -/

namespace Sys2Proof.Machine

/-- The word a fetch at pc reads, or the error of a fetch outside memory (20_memory.md R64, R66). -/
def fetch (s : State) : Except Error Word :=
  match s.memRead s.pc 2 with
  | .ok (hi :: lo :: _) => .ok (wordOfBytes hi lo)
  | .ok _ => .error (.invalidAddress s.pc)
  | .error e => .error e

/-- One cycle (R262): fetch, increment of pc, dispatch, execute; the first failure raises its error (60_exceptions.md R228). -/
def cycle (s : State) : Answer :=
  match fetch s with
  | .error e => raise e s
  | .ok w =>
    match dispatch w with
    | none => raise (.invalidInstruction w) (s.setPc (s.pc + 2))
    | some i => exec i (s.setPc (s.pc + 2))

/-- The CORE's own move (R260): a cycle when RUNNING, one moment of the hold in KEY_WAIT. STOPPED and HALTED have none: there
the answer is the one given. -/
def ownMove (ifStopped ifHalted : Answer) (s : State) : Answer :=
  match s.runState with
  | .running => cycle s
  | .keyWait x => .next (heldMove x s)
  | .stopped => ifStopped
  | .halted => ifHalted

/-- One step: an event of the host is a step of its own, between cycles or in the hold (R264); in an idle slot the CORE makes
its own move, or waits where it has none; after the host's last slot a machine that has no move is at the end of its run. -/
def advance (s : State) : Answer :=
  match s.inputs with
  | [] => ownMove (.fault .stopped) (.fault (.halted s.err)) s
  | .idle :: rest => ownMove (.next { s with inputs := rest }) (.next { s with inputs := rest }) { s with inputs := rest }
  | e :: rest => .next (hostEffect e { s with inputs := rest })

/-- The host's events with an idle slot in front, so that the next step is the CORE's own. -/
def idleFirst (inputs : List HostEvent) : List HostEvent :=
  match inputs with
  | [] => []
  | .idle :: rest => .idle :: rest
  | e :: rest => .idle :: e :: rest

/-- A pc a fetch can succeed at: the one given, or ORIGIN (20_memory.md R64). -/
def fetchablePc (s : State) : CodeAddr :=
  if admitted s.cfg.capacity s.pc.toNat 2 then s.pc else BitVec.ofNat pcwidth s.cfg.origin

/-- The state whose next step fetches and runs the word: it is stored at pc, the scheduler is RUNNING and the host idle. -/
def placeWord (s : State) (w : Word) : State :=
  { s with pc := fetchablePc s, runState := .running, inputs := idleFirst s.inputs,
           mem := Memory.writeBytes s.mem (fetchablePc s).toNat (bytesOfWord w) }

end Sys2Proof.Machine
end

