-- ==== Sys2Proof/Machine/Step.lean ====
section
/-! DEFINITION. The step of the machine, and the state that has a given instruction next. Both only call Machine/Cycle.lean. -/

namespace Sys2Proof.Machine

/-- One step of the machine (70_reset_and_hazards.md R260 to R264). -/
def step (s : State) : Host.Outcome State Fault Refusal := Sys2Proof.Machine.advance s

/-- `s` with the instruction whose first `nbits` bits are `w` (the bits above are zero) stored where `step` fetches next. -/
def State.withFetchWord (s : State) (nbits w : Nat) : State :=
  Sys2Proof.Machine.placeWord s (BitVec.ofNat iword (w % 2 ^ nbits))

end Sys2Proof.Machine
end

