-- ==== Sys2Proof/WellFormed.lean ====
section
/-! DEFINITION. The checks. An instruction needs none: a selector is 4 bits and always names a register (10_state.md R20), an
immediate has its field's width (30_encoding.md R94), so every `Instr` is well formed by its type. What a type cannot say
is checked here: the configuration (20_memory.md R71) and the relations between the fields of the state. -/

namespace Sys2Proof

/-- The constraints on the parameters: the font table lies below ORIGIN and `FONT_DATA` is its `16 * GLYPH_BYTES` bytes
(00_scope.md R6, 20_memory.md R71); the first word of a program lies in memory, and every address is a 16-bit number, as 10_state.md
R24 and R28 take it (log entry 8). -/
def Config.wf (c : Config) : Bool :=
  decide (c.fontBase + Machine.glyphs * c.glyphBytes ≤ c.origin) &&
  decide (c.fontData.length = Machine.glyphs * c.glyphBytes) &&
  decide (c.origin + 2 ≤ c.capacity) && decide (c.capacity ≤ 2 ^ pcwidth)

/-- The stack never holds more than `STACK_DEPTH` entries (10_state.md R33). -/
def Machine.State.stackOk (s : Machine.State) : Bool := decide (s.stack.length ≤ s.cfg.stackDepth)

/-- The latch holds an error exactly in HALTED (10_state.md R37, 70_reset_and_hazards.md R260). -/
def Machine.State.latchOk (s : Machine.State) : Bool := s.err.isSome == decide (s.runState = .halted)

/-- Every stack entry is the address after a fetched 2NNN: at most CAPACITY (10_state.md R31). -/
def Machine.State.entriesOk (s : Machine.State) : Bool := s.stack.all fun a => decide (a.toNat ≤ s.cfg.capacity)

/-- The pc never leaves the range of R31 (10_state.md): at most CAPACITY + 2 after a skip, the sum of the largest byte and
the largest NNN (0x10FE) after a BNNN, ORIGIN after a reset. With the source's numbers the largest of the three is 0x10FE. -/
def Machine.State.pcOk (s : Machine.State) : Bool :=
  decide (s.pc.toNat ≤ s.cfg.capacity + 2 ∨ s.pc.toNat ≤ (2 ^ vwidth - 1) + (2 ^ 12 - 1) ∨ s.pc.toNat ≤ s.cfg.origin)

/-- A state is well formed: canonical memory, and the four relations above. -/
def Machine.State.wf (s : Machine.State) : Bool :=
  Machine.Memory.wf s.cfg.capacity s.mem && s.stackOk && s.latchOk && s.entriesOk && s.pcOk

end Sys2Proof
end

