-- ==== Sys2Proof/Safety.lean ====
section
/-! DEFINITION. The terms claims about runs are stated in: whose turn it is, which registers an instruction reads and writes,
which bytes it accesses, where pc goes. Each is a table of the spec and mentions no meaning of the machine. -/

namespace Sys2Proof.Machine

/-- The next step is the CORE's own: the host is idle in this slot, and `rest` is what it does later (60_exceptions.md R231). -/
def CoreTurn (s : State) (rest : List HostEvent) : Prop :=
  s.inputs = .idle :: rest ∨ (s.inputs = [] ∧ rest = [])

/-- A safe step: the machine goes on, an error that halts it included; no fault and no refusal (60_exceptions.md R229). -/
def Proceeds (s : State) : Prop := ∃ t, step s = .next t

/-- The V registers an instruction may write: the last column of the table of 10_state.md R21. -/
def regsWritten (i : Instr) (r : Reg) : Bool :=
  match i with
  | .cls | .ret | .jp _ | .call _ | .ldI _ | .jpV0 _ => false
  | .seImm _ _ | .sneImm _ _ | .seReg _ _ | .sneReg _ _ | .skp _ | .sknp _ => false
  | .ldImm x _ | .addImm x _ | .rnd x _ => r == x
  | .ldReg x _ | .orReg x _ | .andReg x _ | .xorReg x _ => r == x
  | .addReg x _ | .sub x _ | .subn x _ | .shr x _ | .shl x _ => r == x || r == 0xF
  | .drw _ _ _ => r == 0xF
  | .ldVxDt x | .ldVxKey x => r == x
  | .ldDtVx _ | .ldStVx _ | .addI _ | .ldFont _ | .ldBcd _ | .stRegs _ => false
  | .ldRegs x => decide (r ≤ x)

/-- The V registers an instruction reads: the middle column of the table of 10_state.md R21. -/
def regsRead (c : Config) (i : Instr) (r : Reg) : Bool :=
  match i with
  | .cls | .ret | .jp _ | .call _ | .ldI _ => false
  | .jpV0 _ => r == 0
  | .seImm x _ | .sneImm x _ | .addImm x _ | .skp x | .sknp x => r == x
  | .seReg x y | .sneReg x y => r == x || r == y
  | .ldImm _ _ | .rnd _ _ => false
  | .ldReg _ y => r == y
  | .orReg x y | .andReg x y | .xorReg x y | .addReg x y | .sub x y | .subn x y => r == x || r == y
  | .shr x y | .shl x y =>
    match c.shiftSrc with
    | .x => r == x
    | .y => r == y
  | .drw x y _ => r == x || r == y
  | .ldVxDt _ | .ldVxKey _ => false
  | .ldDtVx x | .ldStVx x | .addI x | .ldFont x | .ldBcd x => r == x
  | .stRegs x => decide (r ≤ x)
  | .ldRegs _ => false

/-- The length of the window at I that an instruction accesses (20_memory.md R68); `none` for the thirty that access none. -/
def accessLen (i : Instr) : Option Nat :=
  match i with
  | .drw _ _ n => some n.toNat
  | .ldBcd _ => some 3
  | .stRegs x | .ldRegs x => some (x.toNat + 1)
  | .cls | .ret | .jp _ | .call _ | .ldI _ | .jpV0 _ => none
  | .seImm _ _ | .sneImm _ _ | .seReg _ _ | .sneReg _ _ | .skp _ | .sknp _ => none
  | .ldImm _ _ | .addImm _ _ | .rnd _ _ | .ldReg _ _ | .orReg _ _ | .andReg _ _ | .xorReg _ _ => none
  | .addReg _ _ | .sub _ _ | .subn _ _ | .shr _ _ | .shl _ _ => none
  | .ldVxDt _ | .ldVxKey _ | .ldDtVx _ | .ldStVx _ | .addI _ | .ldFont _ => none

/-- The bytes an instruction stores, counted from I (20_memory.md R68): FX33 three, FX55 X+1, every other none. -/
def storeLen (i : Instr) : Nat :=
  match i with
  | .ldBcd _ => 3
  | .stRegs x => x.toNat + 1
  | .drw _ _ _ | .ldRegs _ => 0
  | .cls | .ret | .jp _ | .call _ | .ldI _ | .jpV0 _ => 0
  | .seImm _ _ | .sneImm _ _ | .seReg _ _ | .sneReg _ _ | .skp _ | .sknp _ => 0
  | .ldImm _ _ | .addImm _ _ | .rnd _ _ | .ldReg _ _ | .orReg _ _ | .andReg _ _ | .xorReg _ _ => 0
  | .addReg _ _ | .sub _ _ | .subn _ _ | .shr _ _ | .shl _ _ => 0
  | .ldVxDt _ | .ldVxKey _ | .ldDtVx _ | .ldStVx _ | .addI _ | .ldFont _ => 0

/-- pc after one successful cycle of the instruction at address `a` (10_state.md R30), in terms of the state before it. -/
def pcAfter (a : BitVec pcwidth) (i : Instr) (s : State) : BitVec pcwidth :=
  match i with
  | .jp nnn | .call nnn => nnn.setWidth pcwidth
  | .ret => s.stack.headD 0
  | .jpV0 nnn => (s.getV 0).setWidth pcwidth + nnn.setWidth pcwidth
  | .seImm x nn => if s.getV x = nn then a + 4 else a + 2
  | .sneImm x nn => if s.getV x ≠ nn then a + 4 else a + 2
  | .seReg x y => if s.getV x = s.getV y then a + 4 else a + 2
  | .sneReg x y => if s.getV x ≠ s.getV y then a + 4 else a + 2
  | .skp _ => if Config.keyPressed s.fresh = true then a + 4 else a + 2
  | .sknp _ => if Config.keyPressed s.fresh = false then a + 4 else a + 2
  | .cls | .ldI _ | .drw _ _ _ | .ldImm _ _ | .addImm _ _ | .rnd _ _ => a + 2
  | .ldReg _ _ | .orReg _ _ | .andReg _ _ | .xorReg _ _ => a + 2
  | .addReg _ _ | .sub _ _ | .subn _ _ | .shr _ _ | .shl _ _ => a + 2
  | .ldVxDt _ | .ldVxKey _ | .ldDtVx _ | .ldStVx _ | .addI _ | .ldFont _ | .ldBcd _ | .stRegs _ | .ldRegs _ => a + 2

/-- Which instruction makes a call, and with what arguments (60_exceptions.md R243 to R245, 46_display.md R212, 41_skips.md R145). -/
def MakesCall (i : Instr) (s : State) (c : Call) : Prop :=
  match c with
  | .clear => i = .cls
  | .drawSprite bytes cx cy => ∃ x y n, i = .drw x y n ∧ bytes.length = n.toNat ∧
      (∀ k (h : k < bytes.length), bytes[k] = Memory.read s.mem (s.index.toNat + k)) ∧ cx = s.getV x ∧ cy = s.getV y
  | .isPressed key => ∃ x, (i = .skp x ∨ i = .sknp x) ∧ key = s.getV x ∧ key.toNat < s.cfg.nkeys
  | .waitForKeyPress => ∃ x, i = .ldVxKey x
  | .draw8 => ∃ x nn, i = .rnd x nn

end Sys2Proof.Machine
end

