-- ==== Sys2Proof/Certificates/Slice0/Obligations.lean ====
section
/-! DEFINITION. The statements for the provers. CAPACITY, ORIGIN, STACK_DEPTH and NKEYS are the state's own (`s.cfg`), at any value:
the spec wants them as parameters (00_scope.md R6), with 4095, 0x200, 16 and 16 for defaults, which O27 says reset has. Every other
number of the spec is written as a number. `{ s with ... }` in a conclusion says that every field not named is as in `s`: the
frame. -/

open Sys2Proof Sys2Proof.Machine

/-! ### Encoding and decoding -/

/-- Every instruction's two bytes decode to it, whatever bytes follow: no bit of an encoding is dropped. The byte order is the
spec's decision D2. -/
def Obligations.DecodeOfEncode : Prop :=
  ∀ (i : Instr) (rest : List Byte), decodeBytes (encodeBytes i ++ rest) = .ok (i, rest)

/-- R96: the defined encodings are exactly the 34 rows: a word is defined iff it matches a row, the operation it selects stands
for a row it matches and has the word's own fields as parameters, and no word matches two rows. -/
def Obligations.DispatchIsTheTable : Prop :=
  rows.length = 34 ∧
  (∀ w : Word, (∃ i, dispatch w = some i) ↔ ∃ r ∈ rows, w &&& r.mask = r.pattern) ∧
  (∀ (w : Word) (i : Instr), dispatch w = some i →
    rowOf i ∈ rows ∧ w &&& (rowOf i).mask = (rowOf i).pattern ∧ encode i = w) ∧
  (∀ (w : Word), ∀ r₁ ∈ rows, ∀ r₂ ∈ rows, w &&& r₁.mask = r₁.pattern → w &&& r₂.mask = r₂.pattern → r₁ = r₂)

/-- R92: the six fields of a word by the spec's shift and mask expressions, and how they overlap. -/
def Obligations.FieldsOfTheWord : Prop :=
  ∀ w : Word,
    (fields w).op.toNat = w.toNat >>> 12 ∧ (fields w).x.toNat = (w.toNat >>> 8) &&& 0xF ∧
    (fields w).y.toNat = (w.toNat >>> 4) &&& 0xF ∧ (fields w).n.toNat = w.toNat &&& 0xF ∧
    (fields w).nn.toNat = w.toNat &&& 0xFF ∧ (fields w).nnn.toNat = w.toNat &&& 0x0FFF ∧
    (fields w).nnn = (fields w).x ++ (fields w).y ++ (fields w).n ∧ (fields w).nn = (fields w).y ++ (fields w).n

/-- The spec's decisions D4 and D5 (30_encoding.md R98, R102; conflict C1): in family 0 exactly 0x00E0 and 0x00EE are defined, and
5XYN and 9XYN are defined only with N = 0. -/
def Obligations.StrictFamilies : Prop :=
  (∀ nnn : Addr12, dispatch (0x0#4 ++ nnn) =
    if nnn = 0x0E0 then some .cls else if nnn = 0x0EE then some .ret else none) ∧
  ∀ (x y : Reg) (n : Nibble),
    dispatch (0x5#4 ++ x ++ y ++ n) = (if n = 0 then some (.seReg x y) else none) ∧
    dispatch (0x9#4 ++ x ++ y ++ n) = (if n = 0 then some (.sneReg x y) else none)

/-- R99: family 8 by the low nibble; the seven other values are InvalidInstruction (`none`) for every x and y. -/
def Obligations.AluFamilyByLowNibble : Prop :=
  ∀ (x y : Reg) (n : Nibble), dispatch (0x8#4 ++ x ++ y ++ n) =
    match n.toNat with
    | 0 => some (.ldReg x y)
    | 1 => some (.orReg x y)
    | 2 => some (.andReg x y)
    | 3 => some (.xorReg x y)
    | 4 => some (.addReg x y)
    | 5 => some (.sub x y)
    | 6 => some (.shr x y)
    | 7 => some (.subn x y)
    | 14 => some (.shl x y)
    | _ => none

/-- R100 and R101: families E and F by the low byte; the other values are InvalidInstruction (`none`) for every x, and so is the
source's example word 0xFFFF, which halts the cycle loop. -/
def Obligations.KeyAndMiscFamiliesByLowByte : Prop :=
  (∀ (x : Reg) (nn : Byte), dispatch (0xE#4 ++ x ++ nn) =
    if nn = 0x9E then some (.skp x) else if nn = 0xA1 then some (.sknp x) else none) ∧
  (∀ (x : Reg) (nn : Byte), dispatch (0xF#4 ++ x ++ nn) =
    match nn.toNat with
    | 0x07 => some (.ldVxDt x)
    | 0x0A => some (.ldVxKey x)
    | 0x15 => some (.ldDtVx x)
    | 0x18 => some (.ldStVx x)
    | 0x1E => some (.addI x)
    | 0x29 => some (.ldFont x)
    | 0x33 => some (.ldBcd x)
    | 0x55 => some (.stRegs x)
    | 0x65 => some (.ldRegs x)
    | _ => none) ∧
  (∀ (s : State) (rest : List HostEvent), s.runState = .running → CoreTurn s rest → s.pc.toNat + 2 ≤ s.cfg.capacity →
    Memory.read s.mem s.pc.toNat = 0xFF → Memory.read s.mem (s.pc.toNat + 1) = 0xFF →
    ∃ t, step s = .next t ∧ t.err = some (.invalidInstruction 0xFFFF) ∧ t.runState = .halted)

/-- At least one word of every family 0 to F (00_scope.md R11: a family is an opcode nibble), written out from the encodings of the spec,
decodes to what it stands for. The byte order is the spec's decision D2. -/
def Obligations.SampleWordsDecode : Prop :=
  decodeBytes [0x00, 0xE0] = .ok (.cls, []) ∧ decodeBytes [0x1F, 0xFF] = .ok (.jp 0xFFF, []) ∧
  decodeBytes [0x20, 0x00] = .ok (.call 0x000, []) ∧ decodeBytes [0x3A, 0xFF] = .ok (.seImm 0xA 0xFF, []) ∧
  decodeBytes [0x43, 0x42] = .ok (.sneImm 0x3 0x42, []) ∧ decodeBytes [0x5A, 0xB0] = .ok (.seReg 0xA 0xB, []) ∧
  decodeBytes [0x60, 0x0A] = .ok (.ldImm 0 0x0A, []) ∧ decodeBytes [0x70, 0x05] = .ok (.addImm 0 0x05, []) ∧
  decodeBytes [0x80, 0x14] = .ok (.addReg 0 1, []) ∧ decodeBytes [0x8A, 0xBE] = .ok (.shl 0xA 0xB, []) ∧
  decodeBytes [0x9F, 0xF0] = .ok (.sneReg 0xF 0xF, []) ∧ decodeBytes [0xA3, 0x00] = .ok (.ldI 0x300, []) ∧
  decodeBytes [0xB1, 0x23] = .ok (.jpV0 0x123, []) ∧ decodeBytes [0xC1, 0x0F] = .ok (.rnd 1 0x0F, []) ∧
  decodeBytes [0xD0, 0x00] = .ok (.drw 0 0 0, []) ∧ decodeBytes [0xE0, 0xA1] = .ok (.sknp 0, []) ∧
  decodeBytes [0xFF, 0x65] = .ok (.ldRegs 0xF, []) ∧ decodeBytes [0xF0, 0x0A] = .ok (.ldVxKey 0, []) ∧
  decodeBytes [0xFF, 0xFF] = .error (.invalidInstruction 0xFFFF)

/-! ### The step -/

/-- R262: a step of a RUNNING machine whose host is idle is one cycle: the fetch is checked and reads the high byte first
(decision D2), an undefined word is InvalidInstruction (pc then left open, 93 U10), and the decoded operation is executed with pc
grown by 2. A fetch whose second byte alone is outside records pc too: that is the spec's decision D13 (log entry 16). -/
def Obligations.CycleOfTheScheduler : Prop :=
  ∀ (s : State) (rest : List HostEvent), s.runState = .running → CoreTurn s rest →
    ((s.cfg.capacity ≤ s.pc.toNat ∨ s.cfg.capacity < s.pc.toNat + 2) →
      step s = .next { s with inputs := rest, err := some (.invalidAddress s.pc), runState := .halted }) ∧
    (s.pc.toNat + 2 ≤ s.cfg.capacity → ∀ w : Word,
      w = BitVec.ofNat 16 ((Memory.read s.mem s.pc.toNat).toNat * 256 + (Memory.read s.mem (s.pc.toNat + 1)).toNat) →
      (dispatch w = none →
        ∃ q, step s = .next { s with inputs := rest, pc := q, err := some (.invalidInstruction w), runState := .halted }) ∧
      (∀ i, dispatch w = some i → step s = exec i { s with inputs := rest, pc := s.pc + 2 }))

/-- When the two bytes at pc decode to an instruction, the step is that instruction executed with pc moved past its word (and the
host's idle slot used up). -/
def Obligations.StepRunsTheDecodedInstruction : Prop :=
  ∀ (s : State) (rest : List HostEvent) (i : Instr) (more : List Byte),
    s.runState = .running → CoreTurn s rest → s.pc.toNat + 2 ≤ s.cfg.capacity →
    decodeBytes (Memory.readBytes s.mem s.pc.toNat 2) = .ok (i, more) →
    step s = exec i { s with inputs := rest, pc := s.pc + 2 }

/-- An instruction stored at pc as `withFetchWord` stores it is what the next step runs, for every instruction and every
canonical state whose configuration meets the constraints; nothing but pc, memory at pc, the run state and the host's slots
differs. -/
def Obligations.PlacedInstructionRunsNext : Prop :=
  ∀ (s : State) (i : Instr), Config.wf s.cfg = true → Memory.wf s.cfg.capacity s.mem = true →
    ∃ u, step (s.withFetchWord 16 (encode i).toNat) = exec i u ∧
      u = { s with pc := u.pc, mem := u.mem, runState := .running, inputs := u.inputs } ∧
      (s.pc.toNat + 2 ≤ s.cfg.capacity → u.pc = s.pc + 2 ∧
        ∀ a, a ≠ s.pc.toNat → a ≠ s.pc.toNat + 1 → Memory.read u.mem a = Memory.read s.mem a)

/-- MODEL's convention (log entry 22): a STOPPED or HALTED machine for which the host has nothing more to say has no next state;
the fault of a HALTED one surfaces the error (60_exceptions.md R233). -/
def Obligations.NoEnabledStepEndsTheRun : Prop :=
  ∀ s : State, s.inputs = [] →
    (s.runState = .stopped → step s = .fault .stopped) ∧ (s.runState = .halted → step s = .fault (.halted s.err))

/-! ### Errors, halting, the host -/

/-- An instruction that raises an error changes the error latch and the run state and nothing else (60_exceptions.md R227, R232:
the spec's derivation from R222 to R225). -/
def Obligations.RaisingInstructionChangesNothingElse : Prop :=
  ∀ (i : Instr) (s t : State), exec i s = .next t → s.err = none → t.err ≠ none →
    t = { s with err := t.err, runState := .halted }

/-- Which instruction can raise what (60_exceptions.md R226), the payload of InvalidAddress left open (93 U9). -/
def Obligations.ErrorsByInstruction : Prop :=
  ∀ (i : Instr) (s t : State) (e : Error), exec i s = .next t → s.err = none → t.err = some e →
    match e with
    | .invalidInstruction _ => False
    | .invalidAddress _ => ∃ n, accessLen i = some n ∧ (s.cfg.capacity ≤ s.index.toNat ∨ s.cfg.capacity < s.index.toNat + n)
    | .stackOverflow => (∃ nnn, i = .call nnn) ∧ s.cfg.stackDepth ≤ s.stack.length
    | .stackUnderflow => i = .ret ∧ s.stack = []

/-- Every access whose window does not lie in memory raises InvalidAddress and transfers nothing, DXYN with N = 0 included (the
spec's decision D21); where the start itself is outside, the payload is the start, else the statement leaves it open (D13, 93 U9). -/
def Obligations.RefusedAccessTransfersNothing : Prop :=
  ∀ (i : Instr) (n : Nat) (s : State), accessLen i = some n →
    (s.cfg.capacity ≤ s.index.toNat ∨ s.cfg.capacity < s.index.toNat + n) →
    ∃ p, exec i s = .next { s with err := some (.invalidAddress p), runState := .halted } ∧
      (s.cfg.capacity ≤ s.index.toNat → p = s.index)

/-- No instruction faults, and the only refusals are the three situations of 60_exceptions.md R229 (the spec's decision D10):
everywhere else every instruction answers a next state. -/
def Obligations.OnlyThreeRefusals : Prop :=
  ∀ (i : Instr) (s : State),
    (∃ t, exec i s = .next t) ∨
    (∃ x, (i = .skp x ∨ i = .sknp x) ∧ s.cfg.nkeys ≤ (s.getV x).toNat ∧
      exec i s = .refused (.keyIndexOutOfRange (s.getV x))) ∨
    (∃ x, i = .ldFont x ∧ 15 < (s.getV x).toNat ∧ exec i s = .refused (.digitOutOfRange (s.getV x)))

/-- R234: in HALTED no instruction executes and all architectural state is kept (but for the timers where a tick agent exists);
only the host's reset leaves it. -/
def Obligations.OnlyResetLeavesHalted : Prop :=
  ∀ s t : State, s.runState = .halted → step s = .next t →
    (∃ rest, s.inputs = .reset :: rest) ∨
    (t = { s with dt := t.dt, st := t.st, rom := t.rom, inputs := t.inputs } ∧
      (s.cfg.timerTick = .absent → t.dt = s.dt ∧ t.st = s.st))

/-- R267: power-on leaves the initial values, cleared memory, STOPPED and no error; a STOPPED machine executes nothing until the
host's start or reset. -/
def Obligations.PowerOnIsStopped : Prop :=
  (∀ (cfg : Config) (rom : List Byte) (inputs : List HostEvent),
    let s := State.powerOn cfg rom inputs
    (∀ r, s.getV r = 0) ∧ s.index = 0 ∧ s.dt = 0 ∧ s.st = 0 ∧ s.pc = BitVec.ofNat 16 cfg.origin ∧ s.stack = [] ∧
      (∀ a, Memory.read s.mem a = 0) ∧ s.runState = .stopped ∧ s.err = none) ∧
  (∀ s t : State, s.runState = .stopped → step s = .next t →
    (∃ rest, s.inputs = .start :: rest ∨ s.inputs = .reset :: rest) ∨
    t = { s with dt := t.dt, st := t.st, rom := t.rom, inputs := t.inputs })

/-- The events start, reset and stop in every run state (70_reset_and_hazards.md R260; the states are the spec's decision D17), and
the ROM handed over for the next reset (R272; that it is handed over by an event of its own, taken in every run state, is the
model's choice: log entry 32). -/
def Obligations.HostEventTable : Prop :=
  ∀ (s : State) (rest : List HostEvent),
    (s.inputs = .stop :: rest →
      ((s.runState = .running ∨ ∃ x, s.runState = .keyWait x) →
        step s = .next { s with inputs := rest, runState := .stopped }) ∧
      ((s.runState = .halted ∨ s.runState = .stopped) → step s = .next { s with inputs := rest })) ∧
    (s.inputs = .start :: rest →
      (s.runState = .stopped → step s = .next (resetMachine { s with inputs := rest })) ∧
      (s.runState ≠ .stopped → step s = .next { s with inputs := rest })) ∧
    (s.inputs = .reset :: rest → step s = .next (resetMachine { s with inputs := rest })) ∧
    (∀ image, s.inputs = .supplyRom image :: rest → step s = .next { s with inputs := rest, rom := image })

/-- What reset leaves (10_state.md R41, 70_reset_and_hazards.md R268), from any state, for every configuration that meets the
constraints and every ROM that fits: the font and the ROM in memory and zero elsewhere (the spec's decision D15). -/
def Obligations.ResetState : Prop :=
  ∀ (s : State) (rest : List HostEvent), s.inputs = .reset :: rest → Config.wf s.cfg = true →
    s.cfg.origin + s.rom.length ≤ s.cfg.capacity →
    ∃ t, step s = .next t ∧ (∀ r, t.getV r = 0) ∧ t.index = 0 ∧ t.dt = 0 ∧ t.st = 0 ∧ t.pc.toNat = s.cfg.origin ∧
      t.stack = [] ∧ t.runState = .running ∧ t.err = none ∧ t.rom = s.rom ∧ t.cfg = s.cfg ∧
      (∀ k (h : k < s.cfg.fontData.length), Memory.read t.mem (s.cfg.fontBase + k) = s.cfg.fontData[k]) ∧
      (∀ k (h : k < s.rom.length), Memory.read t.mem (s.cfg.origin + k) = s.rom[k]) ∧
      (∀ a, (a < s.cfg.fontBase ∨ s.cfg.fontBase + 16 * s.cfg.glyphBytes ≤ a) →
        (a < s.cfg.origin ∨ s.cfg.origin + s.rom.length ≤ a) → Memory.read t.mem a = 0)

/-- R42: reset returns registers, pc, stack and memory to their initial state, is idempotent and is taken in every run state. -/
def Obligations.ResetIsIdempotentAtAnyTime : Prop :=
  (∀ (s : State) (rest : List HostEvent), s.inputs = .reset :: rest →
    ∃ t, step s = .next t ∧ (∀ r, t.getV r = 0) ∧ t.index = 0 ∧ t.dt = 0 ∧ t.st = 0 ∧ t.pc = BitVec.ofNat 16 s.cfg.origin ∧
      t.stack = [] ∧
      (∀ u rest', u.inputs = .reset :: rest' → u.cfg = s.cfg → u.rom = s.rom →
        ∃ t', step u = .next t' ∧ t'.mem = t.mem)) ∧
  (∀ (s : State) (rest : List HostEvent), s.inputs = .reset :: .reset :: rest →
    ∃ t u, step s = .next t ∧ step t = .next u ∧ u = { t with inputs := rest })

/-- A ROM longer than CAPACITY - ORIGIN (3583 with the source's numbers) halts the machine at reset with nothing of it in memory
(20_memory.md R72, the spec's decision D16). -/
def Obligations.OversizedRomHalts : Prop :=
  ∀ (s : State) (rest : List HostEvent), s.inputs = .reset :: rest → Config.wf s.cfg = true →
    s.cfg.capacity < s.cfg.origin + s.rom.length →
    ∃ t p, step s = .next t ∧ t.runState = .halted ∧ t.err = some (.invalidAddress p) ∧ p.toNat = s.cfg.origin ∧
      ∀ a, s.cfg.origin ≤ a → Memory.read t.mem a = 0

/-- While FX0A waits, only a delivered key, reset or stop ends the hold; the key goes to the pending register, reset and stop
abandon the wait (45_timers_keyboard.md R201; its two halves are the spec's decision D22). -/
def Obligations.HoldEndsByKeyResetOrStop : Prop :=
  ∀ (s t : State) (x : Reg), s.runState = .keyWait x → step s = .next t →
    (t = { s with dt := t.dt, st := t.st, rom := t.rom, inputs := t.inputs, fresh := t.fresh } ∧
      (s.cfg.timerTick = .absent → t.dt = s.dt ∧ t.st = s.st)) ∨
    (∃ k, s.deliveredKey = some k ∧ k.toNat < s.cfg.nkeys ∧ t.getV x = k ∧ (∀ r, r ≠ x → t.getV r = s.getV r) ∧
      t = { s with v := t.v, runState := .running, inputs := t.inputs, fresh := s.fresh + 1 }) ∨
    (∃ rest, s.inputs = .reset :: rest ∧ t = resetMachine { s with inputs := rest }) ∨
    (∃ rest, s.inputs = .stop :: rest ∧ t = { s with inputs := rest, runState := .stopped })

/-- One moment of the hold (45_timers_keyboard.md R201, D22), for whatever the Keyboard does, a free value: a delivered key goes to
the pending register and the CORE runs on; without a key nothing changes. -/
def Obligations.KeyDeliveryCompletesTheWait : Prop :=
  ∀ (s : State) (rest : List HostEvent) (x : Reg), s.runState = .keyWait x → CoreTurn s rest →
    ∃ t, step s = .next t ∧
      match s.deliveredKey with
      | none => t = { s with inputs := rest, fresh := s.fresh + 1 }
      | some k => k.toNat < s.cfg.nkeys ∧ t.getV x = k ∧ (∀ r, r ≠ x → t.getV r = s.getV r) ∧
          t = { s with v := t.v, runState := .running, inputs := rest, fresh := s.fresh + 1 }

/-- The timer tick (60_exceptions.md R242): with the agent present both timers go down by one and stop at zero, in every run
state; with it absent (the spec's decision D11) nothing happens. -/
def Obligations.TimerTickStopsAtZero : Prop :=
  ∀ (s : State) (rest : List HostEvent), s.inputs = .tick :: rest →
    (s.cfg.timerTick = .present → ∃ t, step s = .next t ∧ t.dt.toNat = s.dt.toNat - 1 ∧ t.st.toNat = s.st.toNat - 1 ∧
      t = { s with dt := t.dt, st := t.st, inputs := rest }) ∧
    (s.cfg.timerTick = .absent → step s = .next { s with inputs := rest })

/-- Without a tick agent (the spec's decision D11) DT and ST change only by FX15, FX18 and the reset sequence (10_state.md R25, R26). -/
def Obligations.TimersChangeOnlyByTheirWriters : Prop :=
  ∀ s t : State, s.cfg.timerTick = .absent → step s = .next t →
    (∃ rest, s.inputs = .reset :: rest ∨ s.inputs = .start :: rest) ∨
    ((t.dt = s.dt ∨ ∃ w x, fetch s = .ok w ∧ dispatch w = some (.ldDtVx x) ∧ t.dt = s.getV x) ∧
      (t.st = s.st ∨ ∃ w x, fetch s = .ok w ∧ dispatch w = some (.ldStVx x) ∧ t.st = s.getV x))

/-! ### Invariants -/

/-- Every step keeps the machine's invariant: canonical memory inside 0..CAPACITY-1, at most STACK_DEPTH stack entries, each at most
CAPACITY, the latch set exactly in HALTED, pc in its range (10_state.md R31); and no step changes the configuration. -/
def Obligations.StepKeepsInvariant : Prop :=
  ∀ s t : State, s.wf = true → step s = .next t → t.wf = true ∧ t.cfg = s.cfg

/-- The invariant holds at reset and after power-on, whatever the configuration, the ROM and the host; reset has the numbers of R6
and a configuration that meets the constraints. -/
def Obligations.InvariantAtResetAndPowerOn : Prop :=
  State.reset.wf = true ∧ Config.wf State.reset.cfg = true ∧ State.reset.runState = .running ∧
  State.reset.cfg.capacity = 4095 ∧ State.reset.cfg.origin = 0x200 ∧ State.reset.cfg.stackDepth = 16 ∧
  State.reset.cfg.nkeys = 16 ∧
  ∀ (cfg : Config) (rom : List Byte) (inputs : List HostEvent), (State.powerOn cfg rom inputs).wf = true

/-! ### Instructions: registers -/

/-- R150: VX := NN, nothing else changes; with X = F it loads VF. -/
def Obligations.LoadImmediate : Prop :=
  ∀ (s : State) (x : Reg) (nn : Byte), ∃ t, exec (.ldImm x nn) s = .next t ∧ t = { s with v := t.v } ∧
    t.getV x = nn ∧ ∀ r, r ≠ x → t.getV r = s.getV r

/-- R151: VX := (VX + NN) mod 256, no flag: VF changes only where X = F. -/
def Obligations.AddImmediateWithoutFlag : Prop :=
  ∀ (s : State) (x : Reg) (nn : Byte), ∃ t, exec (.addImm x nn) s = .next t ∧ t = { s with v := t.v } ∧
    (t.getV x).toNat = ((s.getV x).toNat + nn.toNat) % 256 ∧ ∀ r, r ≠ x → t.getV r = s.getV r

/-- R152: VX := a random byte AND NN, one call of the source; NN = 0 gives 0 for certain. The byte is a free value. -/
def Obligations.RandomByteMasked : Prop :=
  ∀ (s : State) (x : Reg) (nn : Byte), ∃ t, exec (.rnd x nn) s = .next t ∧
    t = { s with v := t.v, calls := s.calls ++ [.draw8], fresh := s.fresh + 1 } ∧
    t.getV x = Config.randomByte s.fresh &&& nn ∧ (nn = 0 → t.getV x = 0) ∧ ∀ r, r ≠ x → t.getV r = s.getV r

/-- R163 to R166: copy, OR, AND, XOR into VX; no flag, VY unchanged unless it is VX. -/
def Obligations.CopyAndLogic : Prop :=
  ∀ (s : State) (x y : Reg) (i : Instr) (b : Byte),
    (i, b) ∈ [(Instr.ldReg x y, s.getV y), (.orReg x y, s.getV x ||| s.getV y), (.andReg x y, s.getV x &&& s.getV y),
      (.xorReg x y, s.getV x ^^^ s.getV y)] →
    ∃ t, exec i s = .next t ∧ t = { s with v := t.v } ∧ t.getV x = b ∧ ∀ r, r ≠ x → t.getV r = s.getV r

/-- R167: VX := sum mod 256, VF := 1 iff the raw sum exceeds 255, written last (the spec's decision D7): with X = F the
carry stands. -/
def Obligations.AddSetsCarry : Prop :=
  ∀ (s : State) (x y : Reg), ∃ t, exec (.addReg x y) s = .next t ∧ t = { s with v := t.v } ∧
    (x ≠ 0xF → (t.getV x).toNat = ((s.getV x).toNat + (s.getV y).toNat) % 256) ∧
    t.getV 0xF = (if 255 < (s.getV x).toNat + (s.getV y).toNat then 1 else 0) ∧
    ∀ r, r ≠ x → r ≠ 0xF → t.getV r = s.getV r

/-- R168: VX := VX - VY mod 256, VF := 1 iff VX >= VY before, written last (the spec's decision D7). -/
def Obligations.SubtractSetsNotBorrow : Prop :=
  ∀ (s : State) (x y : Reg), ∃ t, exec (.sub x y) s = .next t ∧ t = { s with v := t.v } ∧
    (x ≠ 0xF → (t.getV x).toNat = (256 + (s.getV x).toNat - (s.getV y).toNat) % 256) ∧
    t.getV 0xF = (if (s.getV y).toNat ≤ (s.getV x).toNat then 1 else 0) ∧
    ∀ r, r ≠ x → r ≠ 0xF → t.getV r = s.getV r

/-- R170: VX := VY - VX mod 256, VF := 1 iff VY >= VX before, written last (the spec's decision D7). -/
def Obligations.ReverseSubtractSetsNotBorrow : Prop :=
  ∀ (s : State) (x y : Reg), ∃ t, exec (.subn x y) s = .next t ∧ t = { s with v := t.v } ∧
    (x ≠ 0xF → (t.getV x).toNat = (256 + (s.getV y).toNat - (s.getV x).toNat) % 256) ∧
    t.getV 0xF = (if (s.getV x).toNat ≤ (s.getV y).toNat then 1 else 0) ∧
    ∀ r, r ≠ x → r ≠ 0xF → t.getV r = s.getV r

/-- R169 and R171, for both values of SHIFT_SRC: with `b` the value shifted, VX := b div 2 and VF := bit 0, or VX := 2 b mod 256
and VF := bit 7; the flag is written last (the spec's decisions D6 and D7). -/
def Obligations.ShiftsByOne : Prop :=
  ∀ (s : State) (x y : Reg) (b : Byte), b = (if s.cfg.shiftSrc = .x then s.getV x else s.getV y) →
    (∃ t, exec (.shr x y) s = .next t ∧ t = { s with v := t.v } ∧ (x ≠ 0xF → (t.getV x).toNat = b.toNat / 2) ∧
      (t.getV 0xF).toNat = b.toNat % 2 ∧ ∀ r, r ≠ x → r ≠ 0xF → t.getV r = s.getV r) ∧
    (∃ t, exec (.shl x y) s = .next t ∧ t = { s with v := t.v } ∧ (x ≠ 0xF → (t.getV x).toNat = b.toNat * 2 % 256) ∧
      (t.getV 0xF).toNat = b.toNat / 128 ∧ ∀ r, r ≠ x → r ≠ 0xF → t.getV r = s.getV r)

/-! ### Instructions: control flow -/

/-- R141 and R142: pc grows by 2 more iff VX = NN, or iff VX differs from NN; nothing else changes. -/
def Obligations.SkipOnImmediate : Prop :=
  ∀ (s : State) (x : Reg) (nn : Byte),
    exec (.seImm x nn) s = .next { s with pc := if s.getV x = nn then s.pc + 2 else s.pc } ∧
    exec (.sneImm x nn) s = .next { s with pc := if s.getV x = nn then s.pc else s.pc + 2 }

/-- R143 and R144: pc grows by 2 more iff VX = VY, or iff they differ; x = y always, or never, skips. -/
def Obligations.SkipOnRegisters : Prop :=
  ∀ (s : State) (x y : Reg),
    exec (.seReg x y) s = .next { s with pc := if s.getV x = s.getV y then s.pc + 2 else s.pc } ∧
    exec (.sneReg x y) s = .next { s with pc := if s.getV x = s.getV y then s.pc else s.pc + 2 } ∧
    exec (.seReg x x) s = .next { s with pc := s.pc + 2 } ∧ exec (.sneReg x x) s = .next s

/-- The key skips (41_skips.md R145, R146): with VX in 0..NKEYS-1 the Keyboard is asked once and its answer, a free value, decides;
with any other VX they are refused (the spec's decision D10). -/
def Obligations.SkipOnKey : Prop :=
  ∀ (s : State) (x : Reg),
    ((s.getV x).toNat < s.cfg.nkeys →
      exec (.skp x) s = .next { s with
        pc := (if Config.keyPressed s.fresh = true then s.pc + 2 else s.pc)
        calls := s.calls ++ [.isPressed (s.getV x)], fresh := s.fresh + 1 } ∧
      exec (.sknp x) s = .next { s with
        pc := (if Config.keyPressed s.fresh = true then s.pc else s.pc + 2)
        calls := s.calls ++ [.isPressed (s.getV x)], fresh := s.fresh + 1 }) ∧
    (s.cfg.nkeys ≤ (s.getV x).toNat → exec (.skp x) s = .refused (.keyIndexOutOfRange (s.getV x)) ∧
      exec (.sknp x) s = .refused (.keyIndexOutOfRange (s.getV x)))

/-- R132 and R134: pc := NNN, or pc := V0 + NNN as 16 bits without reduction to 12; nothing else changes. -/
def Obligations.Jumps : Prop :=
  ∀ (s : State) (nnn : Addr12),
    (∃ t, exec (.jp nnn) s = .next t ∧ t = { s with pc := t.pc } ∧ t.pc.toNat = nnn.toNat) ∧
    (∃ t, exec (.jpV0 nnn) s = .next t ∧ t = { s with pc := t.pc } ∧ t.pc.toNat = (s.getV 0).toNat + nnn.toNat)

/-- R133: below STACK_DEPTH (16) entries the address after the call is pushed and pc := NNN; with that many StackOverflow, nothing
else changes. -/
def Obligations.CallPushesReturnAddress : Prop :=
  ∀ (s : State) (nnn : Addr12),
    (s.stack.length < s.cfg.stackDepth → ∃ t, exec (.call nnn) s = .next t ∧
      t = { s with stack := s.pc :: s.stack, pc := t.pc } ∧
      t.pc.toNat = nnn.toNat) ∧
    (s.cfg.stackDepth ≤ s.stack.length → exec (.call nnn) s = .next { s with err := some .stackOverflow, runState := .halted })

/-- R131: the most recent entry goes to pc and leaves the stack; on an empty stack StackUnderflow, nothing else changes. -/
def Obligations.ReturnPopsTheStack : Prop :=
  ∀ s : State,
    (∀ a rest, s.stack = a :: rest → exec .ret s = .next { s with stack := rest, pc := a }) ∧
    (s.stack = [] → exec .ret s = .next { s with err := some .stackUnderflow, runState := .halted })

/-- A call and, after any body that leaves the stack as the call left it, a return: pc is the address after the call and the
stack is as before it (95 S8). -/
def Obligations.CallThenReturnComesBack : Prop :=
  ∀ (s : State) (nnn : Addr12), s.stack.length < s.cfg.stackDepth →
    ∃ t, exec (.call nnn) s = .next t ∧
      ∀ b : State, b.stack = t.stack → ∃ u, exec .ret b = .next u ∧ u.pc = s.pc ∧ u.stack = s.stack ∧
        u = { b with pc := s.pc, stack := s.stack }

/-! ### Instructions: index register and memory -/

/-- R181 and R182: I := NNN; I := I + VX mod 65536 with no flag; nothing else changes. -/
def Obligations.IndexLoadAndAdd : Prop :=
  ∀ s : State,
    (∀ nnn : Addr12, ∃ t, exec (.ldI nnn) s = .next t ∧ t = { s with index := t.index } ∧ t.index.toNat = nnn.toNat) ∧
    (∀ x : Reg, ∃ t, exec (.addI x) s = .next t ∧ t = { s with index := t.index } ∧
      t.index.toNat = (s.index.toNat + (s.getV x).toNat) % 65536)

/-- FX29 (44_index_memory.md R183): for a digit 0..15 and every font that meets the spec's constraint I is exactly FONT_BASE +
GLYPH_BYTES * VX; for VX > 15 it is refused (the spec's decision D10). -/
def Obligations.FontAddress : Prop :=
  ∀ (s : State) (x : Reg),
    ((s.getV x).toNat ≤ 15 → ∃ t, exec (.ldFont x) s = .next t ∧ t = { s with index := t.index } ∧
      (Config.wf s.cfg = true → t.index.toNat = s.cfg.fontBase + s.cfg.glyphBytes * (s.getV x).toNat)) ∧
    (15 < (s.getV x).toNat → exec (.ldFont x) s = .refused (.digitOutOfRange (s.getV x)))

/-- R184: the three decimal digits of VX at I, I+1, I+2 in canonical memory, every other byte and everything else unchanged (I too,
decision D8); a window outside memory raises InvalidAddress and writes nothing (the payload left open where I is inside: D13). -/
def Obligations.StoreDecimalDigits : Prop :=
  ∀ (s : State) (x : Reg), Memory.wf s.cfg.capacity s.mem = true →
    (s.index.toNat + 3 ≤ s.cfg.capacity → ∃ t, exec (.ldBcd x) s = .next t ∧ t = { s with mem := t.mem } ∧
      (Memory.read t.mem s.index.toNat).toNat = (s.getV x).toNat / 100 ∧
      (Memory.read t.mem (s.index.toNat + 1)).toNat = (s.getV x).toNat / 10 % 10 ∧
      (Memory.read t.mem (s.index.toNat + 2)).toNat = (s.getV x).toNat % 10 ∧
      ∀ a, (a < s.index.toNat ∨ s.index.toNat + 3 ≤ a) → Memory.read t.mem a = Memory.read s.mem a) ∧
    ((s.cfg.capacity ≤ s.index.toNat ∨ s.cfg.capacity < s.index.toNat + 3) →
      ∃ p, exec (.ldBcd x) s = .next { s with err := some (.invalidAddress p), runState := .halted } ∧
        (s.cfg.capacity ≤ s.index.toNat → p = s.index))

/-- R185: V0..VX at I, I+1, ..., in canonical memory, exactly X+1 bytes, every other byte and everything else unchanged (I too,
decision D8); a window outside memory raises InvalidAddress and writes nothing (the payload left open where I itself is inside:
decision D13, 93 U9). -/
def Obligations.StoreRegisterBlock : Prop :=
  ∀ (s : State) (x : Reg), Memory.wf s.cfg.capacity s.mem = true →
    (s.index.toNat + x.toNat + 1 ≤ s.cfg.capacity → ∃ t, exec (.stRegs x) s = .next t ∧ t = { s with mem := t.mem } ∧
      (∀ r : Reg, r ≤ x → Memory.read t.mem (s.index.toNat + r.toNat) = s.getV r) ∧
      ∀ a, (a < s.index.toNat ∨ s.index.toNat + x.toNat + 1 ≤ a) → Memory.read t.mem a = Memory.read s.mem a) ∧
    ((s.cfg.capacity ≤ s.index.toNat ∨ s.cfg.capacity < s.index.toNat + x.toNat + 1) →
      ∃ p, exec (.stRegs x) s = .next { s with err := some (.invalidAddress p), runState := .halted } ∧
        (s.cfg.capacity ≤ s.index.toNat → p = s.index))

/-- R186: exactly V0..VX are loaded from I, I+1, ..., registers above and everything else unchanged (I and memory too,
decision D8); a window outside memory raises InvalidAddress and loads nothing (the payload left open where I itself is inside:
decision D13). -/
def Obligations.LoadRegisterBlock : Prop :=
  ∀ (s : State) (x : Reg),
    (s.index.toNat + x.toNat + 1 ≤ s.cfg.capacity → ∃ t, exec (.ldRegs x) s = .next t ∧ t = { s with v := t.v } ∧
      (∀ r : Reg, r ≤ x → t.getV r = Memory.read s.mem (s.index.toNat + r.toNat)) ∧
      ∀ r : Reg, x < r → t.getV r = s.getV r) ∧
    ((s.cfg.capacity ≤ s.index.toNat ∨ s.cfg.capacity < s.index.toNat + x.toNat + 1) →
      ∃ p, exec (.ldRegs x) s = .next { s with err := some (.invalidAddress p), runState := .halted } ∧
        (s.cfg.capacity ≤ s.index.toNat → p = s.index))

/-- FX55 and then, with I where it was, FX65 with the same X, after any changes to the registers: V0..VX come back. -/
def Obligations.StoreThenLoadRestoresRegisters : Prop :=
  ∀ (s : State) (x : Reg), Memory.wf s.cfg.capacity s.mem = true → s.index.toNat + x.toNat + 1 ≤ s.cfg.capacity →
    ∃ t, exec (.stRegs x) s = .next t ∧ ∀ v' : Vector Byte 16, ∃ u, exec (.ldRegs x) { t with v := v' } = .next u ∧
      (∀ r : Reg, r ≤ x → u.getV r = s.getV r) ∧ ∀ r : Reg, x < r → u.getV r = v'[r.toNat]

/-- Self-modifying code (20_memory.md R77): the word that FX55 stores over bytes k and k+1 of its window is what a fetch there
reads next, high byte first (the spec's decision D2). -/
def Obligations.StoredInstructionIsFetched : Prop :=
  ∀ (s : State) (x r r' : Reg), Config.wf s.cfg = true → Memory.wf s.cfg.capacity s.mem = true →
    s.index.toNat + x.toNat + 1 ≤ s.cfg.capacity → r' ≤ x → r'.toNat = r.toNat + 1 →
    ∃ t, exec (.stRegs x) s = .next t ∧
      fetch { t with pc := BitVec.ofNat 16 (s.index.toNat + r.toNat) } = .ok (s.getV r ++ s.getV r')

/-- R62 and R63: an admitted read gives the bytes of memory in ascending order; an admitted write puts every byte in its place in
canonical memory, which stays canonical, and changes no other byte; an access not admitted is InvalidAddress, of
addr where addr itself is outside (else the payload is left open: decision D13). That an empty window is checked too is decision D21
(log entry 17). -/
def Obligations.CheckedMemoryAccess : Prop :=
  ∀ (s : State) (addr : Word),
    (∀ n, (addr.toNat < s.cfg.capacity ∧ addr.toNat + n ≤ s.cfg.capacity →
        ∃ b, s.memRead addr n = .ok b ∧ b.length = n ∧
        ∀ k (h : k < b.length), b[k] = Memory.read s.mem (addr.toNat + k)) ∧
      (¬ (addr.toNat < s.cfg.capacity ∧ addr.toNat + n ≤ s.cfg.capacity) →
        ∃ p, s.memRead addr n = .error (.invalidAddress p) ∧ (s.cfg.capacity ≤ addr.toNat → p = addr))) ∧
    (∀ v : List Byte, (addr.toNat < s.cfg.capacity ∧ addr.toNat + v.length ≤ s.cfg.capacity →
        ∃ t, s.memWrite addr v = .ok t ∧
        t = { s with mem := t.mem } ∧
        (Memory.wf s.cfg.capacity s.mem = true → Memory.wf s.cfg.capacity t.mem = true ∧
          ∀ k (h : k < v.length), Memory.read t.mem (addr.toNat + k) = v[k]) ∧
        ∀ a, (a < addr.toNat ∨ addr.toNat + v.length ≤ a) → Memory.read t.mem a = Memory.read s.mem a) ∧
      (¬ (addr.toNat < s.cfg.capacity ∧ addr.toNat + v.length ≤ s.cfg.capacity) →
        ∃ p, s.memWrite addr v = .error (.invalidAddress p) ∧ (s.cfg.capacity ≤ addr.toNat → p = addr)))

/-! ### Instructions: timers, keyboard, display -/

/-- R200, R202 and R203: VX := DT, DT := VX, ST := VX; nothing else changes. -/
def Obligations.TimerRegisterMoves : Prop :=
  ∀ (s : State) (x : Reg),
    (∃ t, exec (.ldVxDt x) s = .next t ∧ t = { s with v := t.v } ∧ t.getV x = s.dt ∧ ∀ r, r ≠ x → t.getV r = s.getV r) ∧
    exec (.ldDtVx x) s = .next { s with dt := s.getV x } ∧ exec (.ldStVx x) s = .next { s with st := s.getV x }

/-- The beginning of FX0A (45_timers_keyboard.md R201, decision D22): the wait is asked for, the CORE is held with X pending, and
nothing else changes; VX keeps its value until the key comes. -/
def Obligations.KeyWaitHoldsTheCore : Prop :=
  ∀ (s : State) (x : Reg), ∃ t, exec (.ldVxKey x) s = .next t ∧ t.runState = .keyWait x ∧
    t.calls = s.calls ++ [.waitForKeyPress] ∧ t = { s with runState := t.runState, calls := t.calls }

/-- R210: exactly one `clear()` call, no register, memory or stack change. -/
def Obligations.ClearCallsTheDisplayOnce : Prop :=
  ∀ s : State, ∃ t, exec .cls s = .next t ∧ t.calls = s.calls ++ [.clear] ∧ t = { s with calls := t.calls }

/-- DXYN (46_display.md R212): with the window [I, I+N) in memory the Display is sent its bytes and the raw coordinates VX, VY, and
VF := its answer, a free value; I and memory are unchanged (decision D8). VF = 0 for the empty sprite of N = 0 is decision D21
(log entry 17). -/
def Obligations.DrawSendsSpriteAndSetsFlag : Prop :=
  ∀ (s : State) (x y : Reg) (n : Nibble), s.index.toNat < s.cfg.capacity → s.index.toNat + n.toNat ≤ s.cfg.capacity →
    ∃ t bytes, exec (.drw x y n) s = .next t ∧ bytes.length = n.toNat ∧
      (∀ k (h : k < bytes.length), bytes[k] = Memory.read s.mem (s.index.toNat + k)) ∧
      t.calls = s.calls ++ [.drawSprite bytes (s.getV x) (s.getV y)] ∧
      t = { s with v := t.v, calls := t.calls, fresh := s.fresh + 1 } ∧
      t.getV 0xF = (if n ≠ 0 ∧ Config.spriteErased s.fresh = true then 1 else 0) ∧
      ∀ r, r ≠ 0xF → t.getV r = s.getV r

/-! ### Rules of the whole machine -/

/-- R21: every instruction writes only the registers of its line of the table, and its result does not depend on a register that
the line does not read: with such a register holding any other value the instruction answers the same state but for it, and where
it is written, the same value. -/
def Obligations.RegistersReadAndWritten : Prop :=
  ∀ (i : Instr) (s t : State), exec i s = .next t →
    (∀ r, regsWritten i r = false → t.getV r = s.getV r) ∧
    (∀ r b, regsRead s.cfg i r = false → ∃ t', exec i (s.setV r b) = .next t' ∧ t' = { t with v := t'.v } ∧
      (∀ q, q ≠ r → t'.getV q = t.getV q) ∧ (t'.getV r = t.getV r ∨ (t'.getV r = b ∧ t.getV r = s.getV r)))

/-- No instruction but FX33 and FX55 changes a byte of memory, and those only the bytes from I on that they store (20_memory.md
R68, R69). -/
def Obligations.MemoryChangesOnlyWhereStored : Prop :=
  ∀ (i : Instr) (s t : State), exec i s = .next t →
    ∀ a, (a < s.index.toNat ∨ s.index.toNat + storeLen i ≤ a) → Memory.read t.mem a = Memory.read s.mem a

/-- I, DT, ST and the stack change only by their own instructions (10_state.md R24 to R27, R33; that FX33, FX55, FX65 and DXYN keep I
is the spec's decision D8, log entry 11), the run state and the latch only by FX0A and an error, and no instruction touches the ROM,
the configuration or the host's events. -/
def Obligations.SpecialStateHasItsOwnWriters : Prop :=
  ∀ (i : Instr) (s t : State), exec i s = .next t →
    (t.index = s.index ∨ (∃ nnn, i = .ldI nnn) ∨ (∃ x, i = .addI x) ∨ ∃ x, i = .ldFont x) ∧
    (t.dt = s.dt ∨ ∃ x, i = .ldDtVx x) ∧ (t.st = s.st ∨ ∃ x, i = .ldStVx x) ∧
    (t.stack = s.stack ∨ i = .ret ∨ ∃ nnn, i = .call nnn) ∧
    ((t.runState = s.runState ∧ t.err = s.err) ∨ (t.runState = .halted ∧ t.err ≠ none) ∨
      ∃ x, i = .ldVxKey x ∧ t.runState = .keyWait x ∧ t.err = s.err) ∧
    t.rom = s.rom ∧ t.cfg = s.cfg ∧ t.inputs = s.inputs

/-- R30: the net change of pc over one successful cycle of the instruction at address a. -/
def Obligations.PcAfterOneCycle : Prop :=
  ∀ (i : Instr) (s t : State) (a : Word), s.pc = a + 2 → s.err = none → exec i s = .next t → t.err = none →
    t.pc = pcAfter a i s

/-- Each call of a collaborator comes from its own instruction only, with the operands the spec names, at most one an instruction
(60_exceptions.md R243 to R245). -/
def Obligations.CallsComeFromTheirInstructions : Prop :=
  ∀ (i : Instr) (s t : State), exec i s = .next t →
    t.calls = s.calls ∨ ∃ c, t.calls = s.calls ++ [c] ∧ MakesCall i s c

/-- Progress (60_exceptions.md R229, R234; the ends of a run are the model's convention, log entry 22): every step answers a next
state, but for a STOPPED or HALTED machine for which the host has nothing more, and for the three refusals of decision D10. -/
def Obligations.StepProceedsUnlessEndedOrRefused : Prop :=
  ∀ s : State, Proceeds s ∨
    (s.inputs = [] ∧ ((s.runState = .stopped ∧ step s = .fault .stopped) ∨
      (s.runState = .halted ∧ step s = .fault (.halted s.err)))) ∨
    (s.runState = .running ∧ ∃ w x, fetch s = .ok w ∧
      (((dispatch w = some (.skp x) ∨ dispatch w = some (.sknp x)) ∧ s.cfg.nkeys ≤ (s.getV x).toNat ∧
          step s = .refused (.keyIndexOutOfRange (s.getV x))) ∨
        (dispatch w = some (.ldFont x) ∧ 15 < (s.getV x).toNat ∧ step s = .refused (.digitOutOfRange (s.getV x)))))
end

