-- ==== Sys2Proof/Laws/Words.lean ====
section
/-! SUPPORT. The bounds of the CORE's words as numbers. The widths are fields of `sizes`, and `omega` and `simp` want numbers: proofs
take a bound from here, or rewrite with the two powers. -/

namespace Sys2Proof

/-- The values of a byte. -/
@[simp] theorem two_pow_vwidth : 2 ^ vwidth = 256 := rfl

/-- The values of a word. -/
@[simp] theorem two_pow_iword : 2 ^ iword = 65536 := rfl

/-- The values of I. -/
@[simp] theorem two_pow_iwidth : 2 ^ iwidth = 65536 := rfl

/-- The values of pc. -/
@[simp] theorem two_pow_pcwidth : 2 ^ pcwidth = 65536 := rfl

/-- A byte is below 256. -/
theorem byte_lt (b : Byte) : b.toNat < 256 := b.isLt

/-- A word is below 65536. -/
theorem word_lt (w : Word) : w.toNat < 65536 := w.isLt

/-- Two increments of pc are one skip (10_state.md R30). -/
theorem add_two_two (a : CodeAddr) : a + 2 + 2 = a + 4 := by
  rw [BitVec.add_assoc]
  rfl

end Sys2Proof
end

