-- ==== Sys2Proof/Laws/Alu.lean ====
section
/-! SUPPORT. The alu in numbers: each result as the exact integer reduced mod 256, each flag as a bound or a bit (43_alu.md R160,
R161). -/

namespace Sys2Proof.Machine

/-- The sum (R167). -/
theorem toNat_aluResult_add (a b : Byte) : (aluResult .add a b).toNat = (a.toNat + b.toNat) % 256 := BitVec.toNat_ofNat _ _

/-- The difference (R168, R170). -/
theorem toNat_aluResult_sub (a b : Byte) : (aluResult .sub a b).toNat = (256 + a.toNat - b.toNat) % 256 := by
  have ha := byte_lt a
  have hb := byte_lt b
  have h : (aluResult .sub a b).toNat = ((a.toNat - b.toNat : Int) % 256).toNat := BitVec.toNat_ofInt _
  omega

/-- The half (R169). -/
theorem toNat_aluResult_shr (a b : Byte) : (aluResult .shr a b).toNat = a.toNat / 2 := by
  have ha := byte_lt a
  have h : (aluResult .shr a b).toNat = a.toNat / 2 % 256 := BitVec.toNat_ofNat _ _
  omega

/-- The double (R171). -/
theorem toNat_aluResult_shl (a b : Byte) : (aluResult .shl a b).toNat = a.toNat * 2 % 256 := BitVec.toNat_ofNat _ _

/-- The carry (R167). -/
theorem carry_eq (a b : Byte) : carry a b = decide (255 < a.toNat + b.toNat) := rfl

/-- The bit a left shift shifts out (R171). -/
theorem shiftedOutLeft_eq (a : Byte) : shiftedOutLeft a = a.getLsbD 7 := rfl

end Sys2Proof.Machine
end

