-- ==== Sys2Proof/Laws/Decode.lean ====
section
/-! SUPPORT. The fields of a word written as its digits, and a word put together from its fields: what proofs about encodings
cite in place of shifting and masking. -/

namespace Sys2Proof

/-- Concatenation as a number (00_scope.md R7). -/
theorem toNat_append_eq {m n : Nat} (a : BitVec m) (b : BitVec n) : (a ++ b).toNat = a.toNat * 2 ^ n + b.toNat := by
  rw [BitVec.toNat_append, ← Nat.shiftLeft_add_eq_or_of_lt b.isLt, Nat.shiftLeft_eq]

/-- A field of a word as a number. -/
theorem toNat_field (w : Word) (lo len : Nat) : (w.extractLsb' lo len).toNat = w.toNat / 2 ^ lo % 2 ^ len := by
  rw [BitVec.extractLsb'_toNat, Nat.shiftRight_eq_div_pow]

/-- The fields of a word `op nnn`. -/
theorem fields_op_nnn (a : BitVec 4) (nnn : Addr12) : (fields (a ++ nnn)).op = a ∧ (fields (a ++ nnn)).nnn = nnn := by
  have h := toNat_append_eq a nnn
  have ha := a.isLt
  have hn := nnn.isLt
  constructor <;> apply BitVec.eq_of_toNat_eq <;> simp only [fields, toNat_field] <;> omega

/-- The fields of a word `op x nn`. -/
theorem fields_op_x_nn (a : BitVec 4) (x : Reg) (nn : Byte) :
    (fields (a ++ x ++ nn)).op = a ∧ (fields (a ++ x ++ nn)).x = x ∧ (fields (a ++ x ++ nn)).nn = nn := by
  have h : _ = _ * 256 + _ := toNat_append_eq (a ++ x) nn
  have h' := toNat_append_eq a x
  have ha := a.isLt
  have hx := x.isLt
  have hn := byte_lt nn
  refine ⟨?_, ?_, ?_⟩ <;> apply BitVec.eq_of_toNat_eq <;> simp only [fields, toNat_field, two_pow_vwidth] <;> omega

/-- The fields of a word `op x y n`. -/
theorem fields_op_x_y_n (a : BitVec 4) (x y : Reg) (n : Nibble) :
    (fields (a ++ x ++ y ++ n)).op = a ∧ (fields (a ++ x ++ y ++ n)).x = x ∧ (fields (a ++ x ++ y ++ n)).y = y ∧
      (fields (a ++ x ++ y ++ n)).n = n := by
  have h := toNat_append_eq (a ++ x ++ y) n
  have h' := toNat_append_eq (a ++ x) y
  have h'' := toNat_append_eq a x
  have ha := a.isLt
  have hx := x.isLt
  have hy := y.isLt
  have hn := n.isLt
  refine ⟨?_, ?_, ?_, ?_⟩ <;> apply BitVec.eq_of_toNat_eq <;> simp only [fields, toNat_field] <;> omega

/-- Every word is its opcode and its address. -/
theorem word_eq_op_nnn (w : Word) : w = (fields w).op ++ (fields w).nnn := by
  apply BitVec.eq_of_toNat_eq
  have h := toNat_append_eq (fields w).op (fields w).nnn
  have hw := word_lt w
  simp only [fields, toNat_field] at h ⊢
  omega

/-- Every word is its opcode, its first selector and its immediate byte. -/
theorem word_eq_op_x_nn (w : Word) : w = (fields w).op ++ (fields w).x ++ (fields w).nn := by
  apply BitVec.eq_of_toNat_eq
  have h : _ = _ * 256 + _ := toNat_append_eq ((fields w).op ++ (fields w).x) (fields w).nn
  have h' := toNat_append_eq (fields w).op (fields w).x
  have hw := word_lt w
  simp only [fields, toNat_field, two_pow_vwidth] at h h' ⊢
  omega

/-- Every word is its four digits. -/
theorem word_eq_op_x_y_n (w : Word) : w = (fields w).op ++ (fields w).x ++ (fields w).y ++ (fields w).n := by
  apply BitVec.eq_of_toNat_eq
  have h := toNat_append_eq ((fields w).op ++ (fields w).x ++ (fields w).y) (fields w).n
  have h' := toNat_append_eq ((fields w).op ++ (fields w).x) (fields w).y
  have h'' := toNat_append_eq (fields w).op (fields w).x
  have hw := word_lt w
  simp only [fields, toNat_field] at h h' h'' ⊢
  omega

/-- The bytes of a word, put together again, are the word (20_memory.md R66). -/
theorem wordOfBytes_bytesOfWord (w : Word) : wordOfBytes (w.extractLsb' 8 8) (w.extractLsb' 0 8) = w := by
  apply BitVec.eq_of_toNat_eq
  have h := toNat_append_eq (w.extractLsb' 8 8) (w.extractLsb' 0 8)
  have hw := word_lt w
  simp only [toNat_field] at h
  unfold wordOfBytes
  omega

end Sys2Proof
end

