-- ==== Sys2Proof/Laws/Memory.lean ====
section
/-! SUPPORT. The laws of the byte store: a read after a write, and that every operation keeps the canonical form. -/

namespace Sys2Proof.Machine

@[simp] theorem Memory.read_nil (k : Nat) : Memory.read [] k = clearedByte := rfl

/-- The canonical form from an address on holds from every lower address on. -/
theorem Memory.wfFrom_mono {cap : Nat} {m : Memory} {lo lo' : Nat} (h : Memory.wfFrom cap lo m = true) (hle : lo' ≤ lo) :
    Memory.wfFrom cap lo' m = true := by
  cases m with
  | nil => rfl
  | cons c m =>
    simp only [Memory.wfFrom, Bool.and_eq_true, decide_eq_true_eq] at h ⊢
    exact ⟨⟨⟨by omega, h.1.1.2⟩, h.1.2⟩, h.2⟩

/-- Below the canonical form's lowest address nothing is listed. -/
theorem Memory.read_below {cap : Nat} {m : Memory} {lo k : Nat} (h : Memory.wfFrom cap lo m = true) (hk : k < lo) :
    Memory.read m k = clearedByte := by
  induction m generalizing lo with
  | nil => rfl
  | cons c m ih =>
    simp only [Memory.wfFrom, Bool.and_eq_true, decide_eq_true_eq] at h
    simp only [Memory.read, if_neg (show ¬ k = c.1 by omega)]
    exact ih h.2 (by omega)

/-- A byte that is not written reads as before, whatever the memory. -/
theorem Memory.read_write_other (m : Memory) {k j : Nat} (v : Byte) (h : j ≠ k) :
    Memory.read (Memory.write m k v) j = Memory.read m j := by
  induction m with
  | nil => by_cases hv : v = clearedByte <;> simp [Memory.write, Memory.read, hv, h]
  | cons c m ih =>
    obtain ⟨a, b⟩ := c
    by_cases h1 : k < a
    · by_cases hv : v = clearedByte <;> simp [Memory.write, Memory.read, h1, hv, h]
    · by_cases h2 : k = a
      · subst h2
        by_cases hv : v = clearedByte <;> simp [Memory.write, Memory.read, hv, h]
      · simp [Memory.write, Memory.read, h1, h2, ih]

/-- In canonical memory the written byte reads back. -/
theorem Memory.read_write_same {cap : Nat} {m : Memory} {lo : Nat} (h : Memory.wfFrom cap lo m = true) (k : Nat) (v : Byte) :
    Memory.read (Memory.write m k v) k = v := by
  induction m generalizing lo with
  | nil => by_cases hv : v = clearedByte <;> simp [Memory.write, Memory.read, hv]
  | cons c m ih =>
    obtain ⟨a, b⟩ := c
    simp only [Memory.wfFrom, Bool.and_eq_true, decide_eq_true_eq] at h
    by_cases h1 : k < a
    · by_cases hv : v = clearedByte
      · have := Memory.read_below h.2 (show k < a + 1 by omega)
        simp [Memory.write, Memory.read, h1, hv, this, show ¬ k = a by omega]
      · simp [Memory.write, Memory.read, h1, hv]
    · by_cases h2 : k = a
      · subst h2
        by_cases hv : v = clearedByte
        · simp [Memory.write, hv, Memory.read_below h.2]
        · simp [Memory.write, Memory.read, hv]
      · simp [Memory.write, Memory.read, h1, h2, ih h.2]

/-- A write inside memory keeps the canonical form. -/
theorem Memory.wfFrom_write {cap : Nat} {m : Memory} {lo : Nat} (h : Memory.wfFrom cap lo m = true) {k : Nat} (hlo : lo ≤ k)
    (hk : k < cap) (v : Byte) : Memory.wfFrom cap lo (Memory.write m k v) = true := by
  induction m generalizing lo with
  | nil => by_cases hv : v = clearedByte <;> simp [Memory.write, Memory.wfFrom, hv, hlo, hk]
  | cons c m ih =>
    obtain ⟨a, b⟩ := c
    have h' := h
    simp only [Memory.wfFrom, Bool.and_eq_true, decide_eq_true_eq] at h
    by_cases h1 : k < a
    · by_cases hv : v = clearedByte
      · simpa [Memory.write, h1, hv] using h'
      · simp [Memory.write, Memory.wfFrom, h1, hv, hlo, hk, h.1.1.2, h.1.2, h.2, show k + 1 ≤ a by omega]
    · by_cases h2 : k = a
      · subst h2
        by_cases hv : v = clearedByte
        · simpa [Memory.write, hv] using Memory.wfFrom_mono h.2 (by omega)
        · simp [Memory.write, Memory.wfFrom, hv, hlo, hk, h.2]
      · simp [Memory.write, Memory.wfFrom, h1, h2, h.1.1.1, h.1.1.2, h.1.2, ih h.2 (show a + 1 ≤ k by omega)]

theorem Memory.wf_write {cap : Nat} {m : Memory} (h : Memory.wf cap m = true) {k : Nat} (hk : k < cap) (v : Byte) :
    Memory.wf cap (Memory.write m k v) = true := Memory.wfFrom_write h (by omega) hk v

/-- Bytes written inside memory keep the canonical form. -/
theorem Memory.wf_writeBytes {cap : Nat} {m : Memory} (h : Memory.wf cap m = true) (bytes : List Byte) {k : Nat}
    (hk : k + bytes.length ≤ cap) : Memory.wf cap (Memory.writeBytes m k bytes) = true := by
  induction bytes generalizing m k with
  | nil => exact h
  | cons b bs ih =>
    simp only [List.length_cons] at hk
    exact ih (Memory.wf_write h (by omega) b) (by omega)

/-- Outside the written bytes memory reads as before. -/
theorem Memory.read_writeBytes_outside (m : Memory) (bytes : List Byte) {k j : Nat} (h : j < k ∨ k + bytes.length ≤ j) :
    Memory.read (Memory.writeBytes m k bytes) j = Memory.read m j := by
  induction bytes generalizing m k with
  | nil => rfl
  | cons b bs ih =>
    simp only [List.length_cons] at h
    rw [Memory.writeBytes, ih _ (by omega), Memory.read_write_other m b (by omega)]

/-- Inside the written bytes canonical memory reads what was written. -/
theorem Memory.read_writeBytes_inside {cap : Nat} {m : Memory} (h : Memory.wf cap m = true) (bytes : List Byte) {k i : Nat}
    (hk : k + bytes.length ≤ cap) (hi : i < bytes.length) :
    Memory.read (Memory.writeBytes m k bytes) (k + i) = bytes[i] := by
  induction bytes generalizing m k i with
  | nil => simp at hi
  | cons b bs ih =>
    simp only [List.length_cons] at hk hi
    cases i with
    | zero =>
      rw [Memory.writeBytes, Memory.read_writeBytes_outside _ bs (by omega)]
      simpa using Memory.read_write_same h k b
    | succ i =>
      have := ih (Memory.wf_write h (show k < cap by omega) b) (k := k + 1) (i := i) (by omega) (by omega)
      rw [Memory.writeBytes, show k + (i + 1) = k + 1 + i by omega, this]
      simp

@[simp] theorem Memory.length_readBytes (m : Memory) (k n : Nat) : (Memory.readBytes m k n).length = n := by
  induction n generalizing k with
  | zero => rfl
  | succ n ih => simp [Memory.readBytes, ih]

/-- The bytes of a read are the bytes of memory, ascending. -/
theorem Memory.getElem_readBytes (m : Memory) (k n i : Nat) (hi : i < (Memory.readBytes m k n).length) :
    (Memory.readBytes m k n)[i] = Memory.read m (k + i) := by
  induction n generalizing k i with
  | zero => simp at hi
  | succ n ih =>
    cases i with
    | zero => rfl
    | succ i =>
      simp only [Memory.readBytes, List.getElem_cons_succ]
      rw [ih (k + 1) i, show k + 1 + i = k + (i + 1) by omega]

/-- The bounds check of 20_memory.md R61 in words. -/
theorem admitted_iff (cap addr len : Nat) : admitted cap addr len = true ↔ addr < cap ∧ addr + len ≤ cap := by
  simp [admitted]

end Sys2Proof.Machine
end

