-- ==== Sys2Proof/Laws/State.lean ====
section
/-! SUPPORT. One lemma per field per named update of the state, and what reading a register gives after each, so that no later
proof unfolds a record update. -/

namespace Sys2Proof.Machine

@[simp] theorem State.setV_v (s : State) (r : Reg) (b : Byte) : (s.setV r b).v = s.v.set r.toNat b (reg_lt r) := rfl
@[simp] theorem State.setV_index (s : State) (r : Reg) (b : Byte) : (s.setV r b).index = s.index := rfl
@[simp] theorem State.setV_dt (s : State) (r : Reg) (b : Byte) : (s.setV r b).dt = s.dt := rfl
@[simp] theorem State.setV_st (s : State) (r : Reg) (b : Byte) : (s.setV r b).st = s.st := rfl
@[simp] theorem State.setV_pc (s : State) (r : Reg) (b : Byte) : (s.setV r b).pc = s.pc := rfl
@[simp] theorem State.setV_stack (s : State) (r : Reg) (b : Byte) : (s.setV r b).stack = s.stack := rfl
@[simp] theorem State.setV_mem (s : State) (r : Reg) (b : Byte) : (s.setV r b).mem = s.mem := rfl
@[simp] theorem State.setV_runState (s : State) (r : Reg) (b : Byte) : (s.setV r b).runState = s.runState := rfl
@[simp] theorem State.setV_err (s : State) (r : Reg) (b : Byte) : (s.setV r b).err = s.err := rfl
@[simp] theorem State.setV_rom (s : State) (r : Reg) (b : Byte) : (s.setV r b).rom = s.rom := rfl
@[simp] theorem State.setV_cfg (s : State) (r : Reg) (b : Byte) : (s.setV r b).cfg = s.cfg := rfl
@[simp] theorem State.setV_inputs (s : State) (r : Reg) (b : Byte) : (s.setV r b).inputs = s.inputs := rfl
@[simp] theorem State.setV_calls (s : State) (r : Reg) (b : Byte) : (s.setV r b).calls = s.calls := rfl
@[simp] theorem State.setV_fresh (s : State) (r : Reg) (b : Byte) : (s.setV r b).fresh = s.fresh := rfl

@[simp] theorem State.setFlag_v (s : State) (f : Bool) : (s.setFlag f).v = s.v.set vf.toNat (flagByte f) (reg_lt vf) := rfl
@[simp] theorem State.setFlag_index (s : State) (f : Bool) : (s.setFlag f).index = s.index := rfl
@[simp] theorem State.setFlag_dt (s : State) (f : Bool) : (s.setFlag f).dt = s.dt := rfl
@[simp] theorem State.setFlag_st (s : State) (f : Bool) : (s.setFlag f).st = s.st := rfl
@[simp] theorem State.setFlag_pc (s : State) (f : Bool) : (s.setFlag f).pc = s.pc := rfl
@[simp] theorem State.setFlag_stack (s : State) (f : Bool) : (s.setFlag f).stack = s.stack := rfl
@[simp] theorem State.setFlag_mem (s : State) (f : Bool) : (s.setFlag f).mem = s.mem := rfl
@[simp] theorem State.setFlag_runState (s : State) (f : Bool) : (s.setFlag f).runState = s.runState := rfl
@[simp] theorem State.setFlag_err (s : State) (f : Bool) : (s.setFlag f).err = s.err := rfl
@[simp] theorem State.setFlag_rom (s : State) (f : Bool) : (s.setFlag f).rom = s.rom := rfl
@[simp] theorem State.setFlag_cfg (s : State) (f : Bool) : (s.setFlag f).cfg = s.cfg := rfl
@[simp] theorem State.setFlag_inputs (s : State) (f : Bool) : (s.setFlag f).inputs = s.inputs := rfl
@[simp] theorem State.setFlag_calls (s : State) (f : Bool) : (s.setFlag f).calls = s.calls := rfl
@[simp] theorem State.setFlag_fresh (s : State) (f : Bool) : (s.setFlag f).fresh = s.fresh := rfl

@[simp] theorem State.setPc_v (s : State) (a : CodeAddr) : (s.setPc a).v = s.v := rfl
@[simp] theorem State.setPc_index (s : State) (a : CodeAddr) : (s.setPc a).index = s.index := rfl
@[simp] theorem State.setPc_dt (s : State) (a : CodeAddr) : (s.setPc a).dt = s.dt := rfl
@[simp] theorem State.setPc_st (s : State) (a : CodeAddr) : (s.setPc a).st = s.st := rfl
@[simp] theorem State.setPc_pc (s : State) (a : CodeAddr) : (s.setPc a).pc = a := rfl
@[simp] theorem State.setPc_stack (s : State) (a : CodeAddr) : (s.setPc a).stack = s.stack := rfl
@[simp] theorem State.setPc_mem (s : State) (a : CodeAddr) : (s.setPc a).mem = s.mem := rfl
@[simp] theorem State.setPc_runState (s : State) (a : CodeAddr) : (s.setPc a).runState = s.runState := rfl
@[simp] theorem State.setPc_err (s : State) (a : CodeAddr) : (s.setPc a).err = s.err := rfl
@[simp] theorem State.setPc_rom (s : State) (a : CodeAddr) : (s.setPc a).rom = s.rom := rfl
@[simp] theorem State.setPc_cfg (s : State) (a : CodeAddr) : (s.setPc a).cfg = s.cfg := rfl
@[simp] theorem State.setPc_inputs (s : State) (a : CodeAddr) : (s.setPc a).inputs = s.inputs := rfl
@[simp] theorem State.setPc_calls (s : State) (a : CodeAddr) : (s.setPc a).calls = s.calls := rfl
@[simp] theorem State.setPc_fresh (s : State) (a : CodeAddr) : (s.setPc a).fresh = s.fresh := rfl

@[simp] theorem State.setIndex_v (s : State) (a : Index) : (s.setIndex a).v = s.v := rfl
@[simp] theorem State.setIndex_index (s : State) (a : Index) : (s.setIndex a).index = a := rfl
@[simp] theorem State.setIndex_dt (s : State) (a : Index) : (s.setIndex a).dt = s.dt := rfl
@[simp] theorem State.setIndex_st (s : State) (a : Index) : (s.setIndex a).st = s.st := rfl
@[simp] theorem State.setIndex_pc (s : State) (a : Index) : (s.setIndex a).pc = s.pc := rfl
@[simp] theorem State.setIndex_stack (s : State) (a : Index) : (s.setIndex a).stack = s.stack := rfl
@[simp] theorem State.setIndex_mem (s : State) (a : Index) : (s.setIndex a).mem = s.mem := rfl
@[simp] theorem State.setIndex_runState (s : State) (a : Index) : (s.setIndex a).runState = s.runState := rfl
@[simp] theorem State.setIndex_err (s : State) (a : Index) : (s.setIndex a).err = s.err := rfl
@[simp] theorem State.setIndex_rom (s : State) (a : Index) : (s.setIndex a).rom = s.rom := rfl
@[simp] theorem State.setIndex_cfg (s : State) (a : Index) : (s.setIndex a).cfg = s.cfg := rfl
@[simp] theorem State.setIndex_inputs (s : State) (a : Index) : (s.setIndex a).inputs = s.inputs := rfl
@[simp] theorem State.setIndex_calls (s : State) (a : Index) : (s.setIndex a).calls = s.calls := rfl
@[simp] theorem State.setIndex_fresh (s : State) (a : Index) : (s.setIndex a).fresh = s.fresh := rfl

@[simp] theorem State.call_v (s : State) (c : Call) : (s.call c).v = s.v := rfl
@[simp] theorem State.call_index (s : State) (c : Call) : (s.call c).index = s.index := rfl
@[simp] theorem State.call_dt (s : State) (c : Call) : (s.call c).dt = s.dt := rfl
@[simp] theorem State.call_st (s : State) (c : Call) : (s.call c).st = s.st := rfl
@[simp] theorem State.call_pc (s : State) (c : Call) : (s.call c).pc = s.pc := rfl
@[simp] theorem State.call_stack (s : State) (c : Call) : (s.call c).stack = s.stack := rfl
@[simp] theorem State.call_mem (s : State) (c : Call) : (s.call c).mem = s.mem := rfl
@[simp] theorem State.call_runState (s : State) (c : Call) : (s.call c).runState = s.runState := rfl
@[simp] theorem State.call_err (s : State) (c : Call) : (s.call c).err = s.err := rfl
@[simp] theorem State.call_rom (s : State) (c : Call) : (s.call c).rom = s.rom := rfl
@[simp] theorem State.call_cfg (s : State) (c : Call) : (s.call c).cfg = s.cfg := rfl
@[simp] theorem State.call_inputs (s : State) (c : Call) : (s.call c).inputs = s.inputs := rfl
@[simp] theorem State.call_calls (s : State) (c : Call) : (s.call c).calls = s.calls ++ [c] := rfl
@[simp] theorem State.call_fresh (s : State) (c : Call) : (s.call c).fresh = s.fresh := rfl

@[simp] theorem State.ask_v (s : State) (c : Call) : (s.ask c).v = s.v := rfl
@[simp] theorem State.ask_index (s : State) (c : Call) : (s.ask c).index = s.index := rfl
@[simp] theorem State.ask_dt (s : State) (c : Call) : (s.ask c).dt = s.dt := rfl
@[simp] theorem State.ask_st (s : State) (c : Call) : (s.ask c).st = s.st := rfl
@[simp] theorem State.ask_pc (s : State) (c : Call) : (s.ask c).pc = s.pc := rfl
@[simp] theorem State.ask_stack (s : State) (c : Call) : (s.ask c).stack = s.stack := rfl
@[simp] theorem State.ask_mem (s : State) (c : Call) : (s.ask c).mem = s.mem := rfl
@[simp] theorem State.ask_runState (s : State) (c : Call) : (s.ask c).runState = s.runState := rfl
@[simp] theorem State.ask_err (s : State) (c : Call) : (s.ask c).err = s.err := rfl
@[simp] theorem State.ask_rom (s : State) (c : Call) : (s.ask c).rom = s.rom := rfl
@[simp] theorem State.ask_cfg (s : State) (c : Call) : (s.ask c).cfg = s.cfg := rfl
@[simp] theorem State.ask_inputs (s : State) (c : Call) : (s.ask c).inputs = s.inputs := rfl
@[simp] theorem State.ask_calls (s : State) (c : Call) : (s.ask c).calls = s.calls ++ [c] := rfl
@[simp] theorem State.ask_fresh (s : State) (c : Call) : (s.ask c).fresh = s.fresh + 1 := rfl

/-- A register after a register is written. -/
theorem State.getV_setV (s : State) (x r : Reg) (b : Byte) : (s.setV x b).getV r = if r = x then b else s.getV r := by
  simp only [State.setV, State.getV, Vector.getElem_set, ← BitVec.toNat_inj, eq_comm]

@[simp] theorem State.getV_setV_same (s : State) (x : Reg) (b : Byte) : (s.setV x b).getV x = b := by
  simp [State.getV_setV]

theorem State.getV_setV_other (s : State) {x r : Reg} (b : Byte) (h : r ≠ x) : (s.setV x b).getV r = s.getV r := by
  simp [State.getV_setV, h]

/-- A register after the flag is written. -/
theorem State.getV_setFlag (s : State) (r : Reg) (f : Bool) :
    (s.setFlag f).getV r = if r = vf then flagByte f else s.getV r := State.getV_setV s vf r _

/-- Two states with the same registers read the same. -/
theorem State.getV_congr {s t : State} (h : t.v = s.v) (r : Reg) : t.getV r = s.getV r := by simp [State.getV, h]

@[simp] theorem State.getV_setPc (s : State) (a : CodeAddr) (r : Reg) : (s.setPc a).getV r = s.getV r := rfl
@[simp] theorem State.getV_setIndex (s : State) (a : Index) (r : Reg) : (s.setIndex a).getV r = s.getV r := rfl
@[simp] theorem State.getV_call (s : State) (c : Call) (r : Reg) : (s.call c).getV r = s.getV r := rfl
@[simp] theorem State.getV_ask (s : State) (c : Call) (r : Reg) : (s.ask c).getV r = s.getV r := rfl

@[simp] theorem State.skipIf_v (s : State) (c : Bool) : (s.skipIf c).v = s.v := by cases c <;> rfl
@[simp] theorem State.skipIf_index (s : State) (c : Bool) : (s.skipIf c).index = s.index := by cases c <;> rfl
@[simp] theorem State.skipIf_dt (s : State) (c : Bool) : (s.skipIf c).dt = s.dt := by cases c <;> rfl
@[simp] theorem State.skipIf_st (s : State) (c : Bool) : (s.skipIf c).st = s.st := by cases c <;> rfl
@[simp] theorem State.skipIf_stack (s : State) (c : Bool) : (s.skipIf c).stack = s.stack := by cases c <;> rfl
@[simp] theorem State.skipIf_mem (s : State) (c : Bool) : (s.skipIf c).mem = s.mem := by cases c <;> rfl
@[simp] theorem State.skipIf_runState (s : State) (c : Bool) : (s.skipIf c).runState = s.runState := by cases c <;> rfl
@[simp] theorem State.skipIf_err (s : State) (c : Bool) : (s.skipIf c).err = s.err := by cases c <;> rfl
@[simp] theorem State.skipIf_rom (s : State) (c : Bool) : (s.skipIf c).rom = s.rom := by cases c <;> rfl
@[simp] theorem State.skipIf_cfg (s : State) (c : Bool) : (s.skipIf c).cfg = s.cfg := by cases c <;> rfl
@[simp] theorem State.skipIf_inputs (s : State) (c : Bool) : (s.skipIf c).inputs = s.inputs := by cases c <;> rfl
@[simp] theorem State.skipIf_calls (s : State) (c : Bool) : (s.skipIf c).calls = s.calls := by cases c <;> rfl
@[simp] theorem State.skipIf_fresh (s : State) (c : Bool) : (s.skipIf c).fresh = s.fresh := by cases c <;> rfl
@[simp] theorem State.skipIf_pc (s : State) (c : Bool) : (s.skipIf c).pc = if c then s.pc + 2 else s.pc := by
  cases c <;> rfl

@[simp] theorem State.writeAlu_index (s : State) (x : Reg) (fn : AluFn) (a b : Byte) :
    (s.writeAlu x fn a b).index = s.index := by cases fn <;> rfl
@[simp] theorem State.writeAlu_dt (s : State) (x : Reg) (fn : AluFn) (a b : Byte) :
    (s.writeAlu x fn a b).dt = s.dt := by cases fn <;> rfl
@[simp] theorem State.writeAlu_st (s : State) (x : Reg) (fn : AluFn) (a b : Byte) :
    (s.writeAlu x fn a b).st = s.st := by cases fn <;> rfl
@[simp] theorem State.writeAlu_pc (s : State) (x : Reg) (fn : AluFn) (a b : Byte) :
    (s.writeAlu x fn a b).pc = s.pc := by cases fn <;> rfl
@[simp] theorem State.writeAlu_stack (s : State) (x : Reg) (fn : AluFn) (a b : Byte) :
    (s.writeAlu x fn a b).stack = s.stack := by cases fn <;> rfl
@[simp] theorem State.writeAlu_mem (s : State) (x : Reg) (fn : AluFn) (a b : Byte) :
    (s.writeAlu x fn a b).mem = s.mem := by cases fn <;> rfl
@[simp] theorem State.writeAlu_runState (s : State) (x : Reg) (fn : AluFn) (a b : Byte) :
    (s.writeAlu x fn a b).runState = s.runState := by cases fn <;> rfl
@[simp] theorem State.writeAlu_err (s : State) (x : Reg) (fn : AluFn) (a b : Byte) :
    (s.writeAlu x fn a b).err = s.err := by cases fn <;> rfl
@[simp] theorem State.writeAlu_rom (s : State) (x : Reg) (fn : AluFn) (a b : Byte) :
    (s.writeAlu x fn a b).rom = s.rom := by cases fn <;> rfl
@[simp] theorem State.writeAlu_cfg (s : State) (x : Reg) (fn : AluFn) (a b : Byte) :
    (s.writeAlu x fn a b).cfg = s.cfg := by cases fn <;> rfl
@[simp] theorem State.writeAlu_inputs (s : State) (x : Reg) (fn : AluFn) (a b : Byte) :
    (s.writeAlu x fn a b).inputs = s.inputs := by cases fn <;> rfl
@[simp] theorem State.writeAlu_calls (s : State) (x : Reg) (fn : AluFn) (a b : Byte) :
    (s.writeAlu x fn a b).calls = s.calls := by cases fn <;> rfl
@[simp] theorem State.writeAlu_fresh (s : State) (x : Reg) (fn : AluFn) (a b : Byte) :
    (s.writeAlu x fn a b).fresh = s.fresh := by cases fn <;> rfl

/-- The registers after an alu instruction: VF holds the flag where the function has one, else VX holds the result. -/
theorem State.getV_writeAlu (s : State) (x r : Reg) (fn : AluFn) (a b : Byte) :
    (s.writeAlu x fn a b).getV r =
      match aluFlag fn a b with
      | none => if r = x then aluResult fn a b else s.getV r
      | some f => if r = vf then flagByte f else if r = x then aluResult fn a b else s.getV r := by
  cases fn <;> simp [State.writeAlu, aluFlag, State.getV_setV, State.getV_setFlag]

end Sys2Proof.Machine
end

