-- ==== Sys2Proof/Laws/Ops.lean ====
section
/-! SUPPORT. One lemma per shared operation: everything it can answer. Proofs cite these and do not unfold the operation. -/

namespace Sys2Proof.Machine

/-- MemRead: the bytes of memory, or InvalidAddress; never both. -/
theorem State.memRead_cases (s : State) (addr : Word) (n : Nat) :
    (admitted s.cfg.capacity addr.toNat n = true ∧ s.memRead addr n = .ok (Memory.readBytes s.mem addr.toNat n)) ∨
    (admitted s.cfg.capacity addr.toNat n = false ∧ s.memRead addr n = .error (.invalidAddress addr)) := by
  unfold State.memRead
  cases h : admitted s.cfg.capacity addr.toNat n <;> simp

/-- MemWrite: the whole range is written, or InvalidAddress and nothing is. -/
theorem State.memWrite_cases (s : State) (addr : Word) (bytes : List Byte) :
    (admitted s.cfg.capacity addr.toNat bytes.length = true ∧
      s.memWrite addr bytes = .ok { s with mem := Memory.writeBytes s.mem addr.toNat bytes }) ∨
    (admitted s.cfg.capacity addr.toNat bytes.length = false ∧ s.memWrite addr bytes = .error (.invalidAddress addr)) := by
  unfold State.memWrite
  cases h : admitted s.cfg.capacity addr.toNat bytes.length <;> simp

/-- Push: one entry more, or StackOverflow when the stack is full. -/
theorem State.push_cases (s : State) (a : CodeAddr) :
    (s.stack.length < s.cfg.stackDepth ∧ s.push a = .ok { s with stack := a :: s.stack }) ∨
    (s.cfg.stackDepth ≤ s.stack.length ∧ s.push a = .error .stackOverflow) := by
  unfold State.push
  by_cases h : s.stack.length < s.cfg.stackDepth
  · simp [h]
  · exact .inr ⟨by omega, by simp [h]⟩

/-- Pop: the most recent entry, or StackUnderflow when the stack is empty. -/
theorem State.pop_cases (s : State) :
    (∃ a rest, s.stack = a :: rest ∧ s.pop = .ok (a, { s with stack := rest })) ∨
    (s.stack = [] ∧ s.pop = .error .stackUnderflow) := by
  unfold State.pop
  cases h : s.stack with
  | nil => simp
  | cons a rest => simp

/-- The key skips: refused outside 0..NKEYS-1, else a next state. -/
theorem skipOnKey_cases (x : Reg) (wanted : Bool) (s : State) :
    (inKeyRange s.cfg (s.getV x) = true ∧ skipOnKey x wanted s =
      .next ((s.ask (.isPressed (s.getV x))).skipIf (s.pressedAnswer == wanted))) ∨
    (inKeyRange s.cfg (s.getV x) = false ∧ skipOnKey x wanted s = .refused (.keyIndexOutOfRange (s.getV x))) := by
  unfold skipOnKey
  cases h : inKeyRange s.cfg (s.getV x) <;> simp

/-- A fetch reads two bytes, the high one first, or raises InvalidAddress(pc). -/
theorem fetch_cases (s : State) :
    (admitted s.cfg.capacity s.pc.toNat 2 = true ∧
      fetch s = .ok (wordOfBytes (Memory.read s.mem s.pc.toNat) (Memory.read s.mem (s.pc.toNat + 1)))) ∨
    (admitted s.cfg.capacity s.pc.toNat 2 = false ∧ fetch s = .error (.invalidAddress s.pc)) := by
  unfold fetch
  rcases s.memRead_cases s.pc 2 with ⟨h, e⟩ | ⟨h, e⟩ <;> simp [h, e, Memory.readBytes]

/-- A cycle: the fetch's error, the dispatcher's error, or the operation on the incremented pc. -/
theorem cycle_cases (s : State) :
    (fetch s = .error (.invalidAddress s.pc) ∧ cycle s = raise (.invalidAddress s.pc) s) ∨
    (∃ w, fetch s = .ok w ∧ dispatch w = none ∧ cycle s = raise (.invalidInstruction w) (s.setPc (s.pc + 2))) ∨
    (∃ w i, fetch s = .ok w ∧ dispatch w = some i ∧ cycle s = exec i (s.setPc (s.pc + 2))) := by
  unfold cycle
  rcases fetch_cases s with ⟨_, e⟩ | ⟨_, e⟩
  · cases d : dispatch (wordOfBytes (Memory.read s.mem s.pc.toNat) (Memory.read s.mem (s.pc.toNat + 1))) with
    | none => exact .inr (.inl ⟨_, e, d, by simp [e, d]⟩)
    | some i => exact .inr (.inr ⟨_, i, e, d, by simp [e, d]⟩)
  · exact .inl ⟨e, by simp [e]⟩

/-- A delivered key is a key of the machine. -/
theorem State.deliveredKey_lt (s : State) {k : Byte} (h : s.deliveredKey = some k) : k.toNat < s.cfg.nkeys := by
  unfold State.deliveredKey at h
  split at h
  · cases h
  · split at h
    · cases h
      assumption
    · cases h

/-- The status value of the latch is 0 exactly where it holds no error (60_exceptions.md R221). -/
theorem State.errCode_eq_zero (s : State) : s.errCode = 0 ↔ s.err = none := by
  unfold State.errCode
  cases s.err with
  | none => simp
  | some e => cases e <;> simp [Error.code]

/-- Different kinds of error have different codes, 1 to 4. -/
theorem Error.code_range (e : Error) : 1 ≤ e.code ∧ e.code ≤ 4 := by cases e <;> simp [Error.code]

/-- One moment of the hold: no key and the CORE stays held, or the key in VX and RUNNING. -/
theorem heldMove_cases (x : Reg) (s : State) :
    (s.deliveredKey = none ∧ heldMove x s = { s with fresh := s.fresh + 1 }) ∨
    (∃ k, s.deliveredKey = some k ∧ k.toNat < s.cfg.nkeys ∧
      heldMove x s = { s.setV x k with runState := .running, fresh := s.fresh + 1 }) := by
  unfold heldMove
  cases h : s.deliveredKey with
  | none => exact .inl ⟨rfl, rfl⟩
  | some k => exact .inr ⟨k, rfl, s.deliveredKey_lt h, rfl⟩

/-- The registers after a block is loaded from V[k] on. -/
theorem getElem_loadBlock (bytes : List Byte) (v : Vector Byte nregs) (k r : Nat) (hr : r < 16) :
    (loadBlock v k bytes)[r] = if h : k ≤ r ∧ r < k + bytes.length then bytes[r - k]'(by omega) else v[r] := by
  induction bytes generalizing v k with
  | nil => simp [loadBlock, show ¬ (k ≤ r ∧ r < k) by omega]
  | cons b bs ih =>
    rw [loadBlock, ih]
    by_cases h1 : k = r
    · subst h1
      simp [show 0 < bs.length + 1 by omega]
    · by_cases h2 : k + 1 ≤ r ∧ r < k + 1 + bs.length
      · have h3 : k ≤ r ∧ r < k + (b :: bs).length := by simp only [List.length_cons]; omega
        simp only [h2, h3, and_self, dite_true]
        rw [List.getElem_cons]
        simp only [show ¬ r - k = 0 by omega, dite_false]
        congr 1
      · have h3 : ¬ (k ≤ r ∧ r < k + (b :: bs).length) := by simp only [List.length_cons]; omega
        simp only [h2, h3, dite_false]
        simp [h1]

/-- The register block: V[k] for every k up to X. -/
theorem State.length_regBlock (s : State) (x : Reg) : (s.regBlock x).length = x.toNat + 1 := by
  have := x.isLt
  simp [State.regBlock]
  omega

theorem State.getElem_regBlock (s : State) (x : Reg) (k : Nat) (hk : k < (s.regBlock x).length) (hk' : k < 16) :
    (s.regBlock x)[k] = s.v[k] := by
  simp [State.regBlock]

end Sys2Proof.Machine
end

