-- ==== Sys2Proof/Laws/WellFormed.lean ====
section
/-! SUPPORT. The checks of WellFormed.lean in words: the font constraints and the machine's invariant, clause by clause. -/

namespace Sys2Proof

/-- The constraints on the parameters (20_memory.md R71, 00_scope.md R6). -/
theorem Config.wf_iff (c : Config) :
    Config.wf c = true ↔ c.fontBase + 16 * c.glyphBytes ≤ c.origin ∧ c.fontData.length = 16 * c.glyphBytes ∧
      c.origin + 2 ≤ c.capacity ∧ c.capacity ≤ 65536 := by
  simp only [Config.wf, Bool.and_eq_true, decide_eq_true_eq, and_assoc]
  rfl

namespace Machine

/-- The machine's invariant, clause by clause. -/
theorem State.wf_iff (s : State) :
    s.wf = true ↔ Memory.wf s.cfg.capacity s.mem = true ∧ s.stack.length ≤ s.cfg.stackDepth ∧
      (s.err.isSome = true ↔ s.runState = .halted) ∧ (∀ a ∈ s.stack, a.toNat ≤ s.cfg.capacity) ∧
      (s.pc.toNat ≤ s.cfg.capacity + 2 ∨ s.pc.toNat ≤ 0x10FE ∨ s.pc.toNat ≤ s.cfg.origin) := by
  simp only [State.wf, State.stackOk, State.latchOk, State.entriesOk, State.pcOk, Bool.and_eq_true, decide_eq_true_eq,
    List.all_eq_true, beq_iff_eq]
  constructor
  · rintro ⟨⟨⟨⟨h1, h2⟩, h3⟩, h4⟩, h5⟩
    exact ⟨h1, h2, by rw [h3]; simp, h4, h5⟩
  · rintro ⟨h1, h2, h3, h4, h5⟩
    refine ⟨⟨⟨⟨h1, h2⟩, ?_⟩, h4⟩, h5⟩
    cases he : s.err.isSome
    · exact (decide_eq_false fun h => by simp [h3.2 h] at he).symm
    · exact (decide_eq_true (h3.1 he)).symm

end Machine

end Sys2Proof
end

