-- ==== Sys2Proof/Laws/Exec.lean ====
section
/-! SUPPORT. Everything one instruction can answer, said once: an error and nothing else, one of the refusals, or a next state
that differs only where the tables of Safety.lean say. Claims about all instructions are case splits on `exec_answers`. -/

namespace Sys2Proof.Machine

/-- The bounds check of 20_memory.md R61, failed. -/
theorem not_admitted {cap addr len : Nat} (h : admitted cap addr len = false) : cap ≤ addr ∨ cap < addr + len := by
  rw [Bool.eq_false_iff, ne_eq, admitted_iff] at h
  omega

/-- Which error an instruction raises, and when (60_exceptions.md R226). -/
def RaisedBy (i : Instr) (s : State) (e : Error) : Prop :=
  match e with
  | .invalidInstruction _ => False
  | .invalidAddress p => p = s.index ∧ ∃ n, accessLen i = some n ∧ (s.cfg.capacity ≤ s.index.toNat ∨ s.cfg.capacity < s.index.toNat + n)
  | .stackOverflow => (∃ nnn, i = .call nnn) ∧ s.cfg.stackDepth ≤ s.stack.length
  | .stackUnderflow => i = .ret ∧ s.stack = []

/-- What a completed instruction did, field by field. -/
structure Completed (i : Instr) (s t : State) : Prop where
  regs : ∀ r, regsWritten i r = false → t.getV r = s.getV r
  index : t.index = s.index ∨ (∃ nnn, i = .ldI nnn) ∨ (∃ x, i = .addI x) ∨ ∃ x, i = .ldFont x
  dt : t.dt = s.dt ∨ ∃ x, i = .ldDtVx x ∧ t.dt = s.getV x
  st : t.st = s.st ∨ ∃ x, i = .ldStVx x ∧ t.st = s.getV x
  stack : t.stack = s.stack ∨ (i = .ret ∧ ∃ a, s.stack = a :: t.stack) ∨
    ((∃ nnn, i = .call nnn) ∧ t.stack = s.pc :: s.stack ∧ s.stack.length < s.cfg.stackDepth)
  mem : t.mem = s.mem ∨ ∃ bytes : List Byte, bytes.length = storeLen i ∧ s.index.toNat + bytes.length ≤ s.cfg.capacity ∧
    t.mem = Memory.writeBytes s.mem s.index.toNat bytes
  runState : t.runState = s.runState ∨ ∃ x, i = .ldVxKey x ∧ t.runState = .keyWait x
  err : t.err = s.err
  rom : t.rom = s.rom
  cfg : t.cfg = s.cfg
  inputs : t.inputs = s.inputs
  pc : ∀ a, s.pc = a + 2 → t.pc = pcAfter a i s
  calls : t.calls = s.calls ∨ ∃ c, t.calls = s.calls ++ [c] ∧ MakesCall i s c

/-- The answers of an instruction. -/
inductive ExecAnswers (i : Instr) (s : State) : Answer → Prop
  /-- an error, and nothing else changed -/
  | raised (e : Error) (h : RaisedBy i s e) : ExecAnswers i s (.next { s with err := some e, runState := .halted })
  /-- no key of 0..NKEYS-1 -/
  | keyRefused (x : Reg) (hi : i = .skp x ∨ i = .sknp x) (h : s.cfg.nkeys ≤ (s.getV x).toNat) :
      ExecAnswers i s (.refused (.keyIndexOutOfRange (s.getV x)))
  /-- a digit above 15 -/
  | digitRefused (x : Reg) (hi : i = .ldFont x) (h : 15 < (s.getV x).toNat) :
      ExecAnswers i s (.refused (.digitOutOfRange (s.getV x)))
  /-- the instruction's own effect -/
  | completed (t : State) (h : Completed i s t) : ExecAnswers i s (.next t)

/-- The alu instructions write VX and, those with a flag, VF. -/
theorem completed_writeAlu (i : Instr) (s : State) (x : Reg) (fn : AluFn) (a b : Byte)
    (hx : ∀ r, regsWritten i r = false → r ≠ x ∧ ((aluFlag fn a b).isSome = true → r ≠ vf))
    (hpc : ∀ a, pcAfter a i s = a + 2) : Completed i s (s.writeAlu x fn a b) := by
  refine ⟨?_, by simp, by simp, by simp, by simp, by simp, by simp, by simp, by simp, by simp, by simp, by simp [hpc], by simp⟩
  intro r hr
  obtain ⟨h1, h2⟩ := hx r hr
  rw [State.getV_writeAlu]
  cases hf : aluFlag fn a b with
  | none => simp [h1]
  | some f => simp [h1, h2 (by simp [hf])]

/-- The key skips, refused or completed. -/
theorem skipOnKey_answers (i : Instr) (s : State) (x : Reg) (wanted : Bool) (hi : i = .skp x ∨ i = .sknp x)
    (hpc : ∀ a, pcAfter a i s = if Config.keyPressed s.fresh = wanted then a + 4 else a + 2) :
    ExecAnswers i s (skipOnKey x wanted s) := by
  rcases skipOnKey_cases x wanted s with ⟨h, e⟩ | ⟨h, e⟩ <;> rw [e]
  · have h' : (s.getV x).toNat < s.cfg.nkeys := of_decide_eq_true h
    refine .completed _ ?_
    constructor <;> simp [hpc, State.pressedAnswer]
    · intro r _
      exact State.getV_congr (by simp) r
    · intro a ha
      rw [ha]
      split <;> first | exact add_two_two a | rfl
    · exact ⟨x, hi, rfl, h'⟩
  · have h' : ¬ (s.getV x).toNat < s.cfg.nkeys := of_decide_eq_false h
    exact .keyRefused x hi (by omega)

/-- The skips on registers. -/
theorem completed_skipIf (i : Instr) (s : State) (c : Bool) (hpc : ∀ a, pcAfter a i s = if c = true then a + 4 else a + 2) :
    Completed i s (s.skipIf c) := by
  refine ⟨fun r _ => State.getV_congr (by simp) r, by simp, by simp, by simp, by simp, by simp, by simp, by simp, by simp,
    by simp, by simp, ?_, by simp⟩
  · intro a ha
    simp only [State.skipIf_pc, hpc]
    rw [ha]
    split <;> first | exact add_two_two a | rfl

/-- Everything an instruction can answer. -/
theorem exec_answers (i : Instr) (s : State) : ExecAnswers i s (exec i s) := by
  cases i
  case cls => refine .completed _ ?_; constructor <;> simp [pcAfter, MakesCall]
  case ret =>
    rcases s.pop_cases with ⟨a, rest, h, e⟩ | ⟨h, e⟩ <;> simp only [exec, execRet, e]
    · refine .completed _ ?_
      constructor <;> simp [pcAfter, h, State.getV, State.setPc]
    · exact .raised .stackUnderflow ⟨rfl, h⟩
  case jp => refine .completed _ ?_; constructor <;> simp [pcAfter, addrOf]
  case call nnn =>
    rcases s.push_cases s.pc with ⟨h, e⟩ | ⟨h, e⟩ <;> simp only [exec, execCall, e]
    · refine .completed _ ?_
      constructor <;> simp [pcAfter, addrOf, State.getV, State.setPc]
      exact h
    · exact .raised .stackOverflow ⟨⟨_, rfl⟩, h⟩
  case seImm => exact .completed _ (completed_skipIf _ _ _ (by simp [pcAfter]))
  case sneImm => exact .completed _ (completed_skipIf _ _ _ (by simp [pcAfter]))
  case seReg => exact .completed _ (completed_skipIf _ _ _ (by simp [pcAfter]))
  case sneReg => exact .completed _ (completed_skipIf _ _ _ (by simp [pcAfter]))
  case ldImm => refine .completed _ ?_; constructor <;> simp +contextual [pcAfter, regsWritten, State.getV_setV]
  case addImm => refine .completed _ ?_; constructor <;> simp +contextual [pcAfter, regsWritten, State.getV_setV]
  case ldReg => exact .completed _ (completed_writeAlu _ _ _ _ _ _ (by simp [regsWritten, aluFlag]) (by simp [pcAfter]))
  case orReg => exact .completed _ (completed_writeAlu _ _ _ _ _ _ (by simp [regsWritten, aluFlag]) (by simp [pcAfter]))
  case andReg => exact .completed _ (completed_writeAlu _ _ _ _ _ _ (by simp [regsWritten, aluFlag]) (by simp [pcAfter]))
  case xorReg => exact .completed _ (completed_writeAlu _ _ _ _ _ _ (by simp [regsWritten, aluFlag]) (by simp [pcAfter]))
  case addReg => exact .completed _ (completed_writeAlu _ _ _ _ _ _ (by simp +contextual [regsWritten, vf]) (by simp [pcAfter]))
  case sub => exact .completed _ (completed_writeAlu _ _ _ _ _ _ (by simp +contextual [regsWritten, vf]) (by simp [pcAfter]))
  case shr => exact .completed _ (completed_writeAlu _ _ _ _ _ _ (by simp +contextual [regsWritten, vf]) (by simp [pcAfter]))
  case subn => exact .completed _ (completed_writeAlu _ _ _ _ _ _ (by simp +contextual [regsWritten, vf]) (by simp [pcAfter]))
  case shl => exact .completed _ (completed_writeAlu _ _ _ _ _ _ (by simp +contextual [regsWritten, vf]) (by simp [pcAfter]))
  case ldI => refine .completed _ ?_; constructor <;> simp [pcAfter]
  case jpV0 => refine .completed _ ?_; constructor <;> simp [pcAfter, addrOf]
  case rnd => refine .completed _ ?_; constructor <;> simp +contextual [pcAfter, MakesCall, regsWritten, State.getV_setV]
  case drw x y n =>
    rcases s.memRead_cases s.index n.toNat with ⟨h, e⟩ | ⟨h, e⟩ <;> simp only [exec, execDrw, e]
    · refine .completed _ ?_
      constructor <;> simp +contextual [pcAfter, regsWritten, State.getV_setFlag, vf]
      exact ⟨x, y, n, rfl, Memory.length_readBytes _ _ _, fun k hk => Memory.getElem_readBytes _ _ _ _ _, rfl, rfl⟩
    · exact .raised (.invalidAddress _) ⟨rfl, _, rfl, not_admitted h⟩
  case skp x => exact skipOnKey_answers _ _ _ _ (.inl rfl) (fun _ => rfl)
  case sknp x => exact skipOnKey_answers _ _ _ _ (.inr rfl) (fun _ => rfl)
  case ldVxDt => refine .completed _ ?_; constructor <;> simp +contextual [pcAfter, regsWritten, State.getV_setV]
  case ldVxKey => refine .completed _ ?_; constructor <;> simp [pcAfter, MakesCall, State.getV]
  case ldDtVx => refine .completed _ ?_; constructor <;> simp [pcAfter, State.getV]
  case ldStVx => refine .completed _ ?_; constructor <;> simp [pcAfter, State.getV]
  case addI => refine .completed _ ?_; constructor <;> simp [pcAfter]
  case ldFont x =>
    simp only [exec, execLdFont]
    cases h : inDigitRange (s.getV x)
    · have h' : ¬ (s.getV x).toNat < 16 := of_decide_eq_false h
      exact .digitRefused x rfl (by omega)
    · refine .completed _ ?_
      constructor <;> simp [pcAfter]
  case ldBcd x =>
    rcases s.memWrite_cases s.index (bcdDigits (s.getV x)) with ⟨h, e⟩ | ⟨h, e⟩ <;> simp only [exec, execLdBcd, e]
    · refine .completed _ ?_
      constructor <;> simp [pcAfter, State.getV]
      exact .inr ⟨_, rfl, ((admitted_iff _ _ _).1 h).2, rfl⟩
    · exact .raised (.invalidAddress _) ⟨rfl, _, rfl, not_admitted h⟩
  case stRegs x =>
    rcases s.memWrite_cases s.index (s.regBlock x) with ⟨h, e⟩ | ⟨h, e⟩ <;> simp only [exec, execStRegs, e]
    · refine .completed _ ?_
      constructor <;> simp [pcAfter, State.getV]
      exact .inr ⟨_, s.length_regBlock x, ((admitted_iff _ _ _).1 h).2, rfl⟩
    · exact .raised (.invalidAddress _) ⟨rfl, _, rfl, s.length_regBlock x ▸ not_admitted h⟩
  case ldRegs x =>
    rcases s.memRead_cases s.index (x.toNat + 1) with ⟨h, e⟩ | ⟨h, e⟩ <;> simp only [exec, execLdRegs, e]
    · refine .completed _ ?_
      constructor <;> simp [pcAfter, regsWritten]
      intro r hr
      have hr' : x.toNat < r.toNat := hr
      simp only [State.getV]
      rw [getElem_loadBlock _ _ _ _ r.isLt, dif_neg (by simp; omega)]
    · exact .raised (.invalidAddress _) ⟨rfl, _, rfl, not_admitted h⟩

end Sys2Proof.Machine
end

