-- ==== Sys2Proof/Laws/PerInstr.lean ====
section
/-! SUPPORT. The per-instruction family EncodingRow: the word the encoder writes for an instruction lies in that instruction's row
of the table of 30_encoding.md R96, and the row is in the table. -/

namespace Sys2Proof

/-- Conjunction acts on the parts of a concatenation. -/
theorem append_and_append {m n : Nat} (a c : BitVec m) (b d : BitVec n) :
    (a ++ b) &&& (c ++ d) = (a &&& c) ++ (b &&& d) := by
  ext i hi
  simp only [BitVec.getElem_and, BitVec.getElem_append]
  split <;> simp

/-- The opcode of a word `op nnn`, by the mask 0xF000. -/
theorem and_F000_op_nnn (a : BitVec 4) (nnn : Addr12) : (a ++ nnn : Word) &&& 0xF000 = a ++ 0#12 := by
  have h : (0xF000 : Word) = 0xF#4 ++ 0x000#12 := rfl
  rw [h, append_and_append]
  congr 1
  · exact BitVec.and_allOnes
  · simp

/-- The opcode of a word `op x nn`, by the mask 0xF000. -/
theorem and_F000_op_x_nn (a : BitVec 4) (x : Reg) (nn : Byte) : (a ++ x ++ nn : Word) &&& 0xF000 = a ++ 0#4 ++ 0#8 := by
  have h : (0xF000 : Word) = 0xF#4 ++ 0x0#4 ++ 0x00#8 := rfl
  rw [h, append_and_append, append_and_append]
  congr 1
  · congr 1
    · exact BitVec.and_allOnes
    · simp
  · simp

/-- Opcode and low byte of a word `op x nn`, by the mask 0xF0FF. -/
theorem and_F0FF_op_x_nn (a : BitVec 4) (x : Reg) (nn : Byte) : (a ++ x ++ nn : Word) &&& 0xF0FF = a ++ 0#4 ++ nn := by
  have h : (0xF0FF : Word) = 0xF#4 ++ 0x0#4 ++ 0xFF#8 := rfl
  rw [h, append_and_append, append_and_append]
  congr 1
  · congr 1
    · exact BitVec.and_allOnes
    · simp
  · exact BitVec.and_allOnes

/-- The opcode of a word `op x y n`, by the mask 0xF000. -/
theorem and_F000_op_x_y_n (a : BitVec 4) (x y : Reg) (n : Nibble) :
    (a ++ x ++ y ++ n : Word) &&& 0xF000 = a ++ 0#4 ++ 0#4 ++ 0#4 := by
  have h : (0xF000 : Word) = 0xF#4 ++ 0x0#4 ++ 0x0#4 ++ 0x0#4 := rfl
  rw [h, append_and_append, append_and_append, append_and_append]
  congr 1
  · congr 1
    · congr 1
      · exact BitVec.and_allOnes
      · simp
    · simp
  · simp

/-- Opcode and low digit of a word `op x y n`, by the mask 0xF00F. -/
theorem and_F00F_op_x_y_n (a : BitVec 4) (x y : Reg) (n : Nibble) :
    (a ++ x ++ y ++ n : Word) &&& 0xF00F = a ++ 0#4 ++ 0#4 ++ n := by
  have h : (0xF00F : Word) = 0xF#4 ++ 0x0#4 ++ 0x0#4 ++ 0xF#4 := rfl
  rw [h, append_and_append, append_and_append, append_and_append]
  congr 1
  · congr 1
    · congr 1
      · exact BitVec.and_allOnes
      · simp
    · simp
  · exact BitVec.and_allOnes

end Sys2Proof

namespace Sys2Proof.Laws.EncodingRow

/-- The encoder's word lies in the instruction's row, which is a row of the table. -/
def Statement (i : Instr) : Prop := rowOf i ∈ rows ∧ encode i &&& (rowOf i).mask = (rowOf i).pattern

theorem cls : Statement .cls := ⟨by simp [rowOf, rows], by decide⟩
theorem ret : Statement .ret := ⟨by simp [rowOf, rows], by decide⟩
theorem jp (nnn : Addr12) : Statement (.jp nnn) := ⟨by simp [rowOf, rows], and_F000_op_nnn 0x1#4 nnn⟩
theorem call (nnn : Addr12) : Statement (.call nnn) := ⟨by simp [rowOf, rows], and_F000_op_nnn 0x2#4 nnn⟩
theorem seImm (x : Reg) (nn : Byte) : Statement (.seImm x nn) := ⟨by simp [rowOf, rows], and_F000_op_x_nn 0x3#4 x nn⟩
theorem sneImm (x : Reg) (nn : Byte) : Statement (.sneImm x nn) := ⟨by simp [rowOf, rows], and_F000_op_x_nn 0x4#4 x nn⟩
theorem seReg (x y : Reg) : Statement (.seReg x y) := ⟨by simp [rowOf, rows], and_F00F_op_x_y_n 0x5#4 x y 0x0#4⟩
theorem sneReg (x y : Reg) : Statement (.sneReg x y) := ⟨by simp [rowOf, rows], and_F00F_op_x_y_n 0x9#4 x y 0x0#4⟩
theorem ldImm (x : Reg) (nn : Byte) : Statement (.ldImm x nn) := ⟨by simp [rowOf, rows], and_F000_op_x_nn 0x6#4 x nn⟩
theorem addImm (x : Reg) (nn : Byte) : Statement (.addImm x nn) := ⟨by simp [rowOf, rows], and_F000_op_x_nn 0x7#4 x nn⟩
theorem ldReg (x y : Reg) : Statement (.ldReg x y) := ⟨by simp [rowOf, rows], and_F00F_op_x_y_n 0x8#4 x y 0x0#4⟩
theorem orReg (x y : Reg) : Statement (.orReg x y) := ⟨by simp [rowOf, rows], and_F00F_op_x_y_n 0x8#4 x y 0x1#4⟩
theorem andReg (x y : Reg) : Statement (.andReg x y) := ⟨by simp [rowOf, rows], and_F00F_op_x_y_n 0x8#4 x y 0x2#4⟩
theorem xorReg (x y : Reg) : Statement (.xorReg x y) := ⟨by simp [rowOf, rows], and_F00F_op_x_y_n 0x8#4 x y 0x3#4⟩
theorem addReg (x y : Reg) : Statement (.addReg x y) := ⟨by simp [rowOf, rows], and_F00F_op_x_y_n 0x8#4 x y 0x4#4⟩
theorem sub (x y : Reg) : Statement (.sub x y) := ⟨by simp [rowOf, rows], and_F00F_op_x_y_n 0x8#4 x y 0x5#4⟩
theorem shr (x y : Reg) : Statement (.shr x y) := ⟨by simp [rowOf, rows], and_F00F_op_x_y_n 0x8#4 x y 0x6#4⟩
theorem subn (x y : Reg) : Statement (.subn x y) := ⟨by simp [rowOf, rows], and_F00F_op_x_y_n 0x8#4 x y 0x7#4⟩
theorem shl (x y : Reg) : Statement (.shl x y) := ⟨by simp [rowOf, rows], and_F00F_op_x_y_n 0x8#4 x y 0xE#4⟩
theorem ldI (nnn : Addr12) : Statement (.ldI nnn) := ⟨by simp [rowOf, rows], and_F000_op_nnn 0xA#4 nnn⟩
theorem jpV0 (nnn : Addr12) : Statement (.jpV0 nnn) := ⟨by simp [rowOf, rows], and_F000_op_nnn 0xB#4 nnn⟩
theorem rnd (x : Reg) (nn : Byte) : Statement (.rnd x nn) := ⟨by simp [rowOf, rows], and_F000_op_x_nn 0xC#4 x nn⟩
theorem drw (x y : Reg) (n : Nibble) : Statement (.drw x y n) := ⟨by simp [rowOf, rows], and_F000_op_x_y_n 0xD#4 x y n⟩
theorem skp (x : Reg) : Statement (.skp x) := ⟨by simp [rowOf, rows], and_F0FF_op_x_nn 0xE#4 x 0x9E#8⟩
theorem sknp (x : Reg) : Statement (.sknp x) := ⟨by simp [rowOf, rows], and_F0FF_op_x_nn 0xE#4 x 0xA1#8⟩
theorem ldVxDt (x : Reg) : Statement (.ldVxDt x) := ⟨by simp [rowOf, rows], and_F0FF_op_x_nn 0xF#4 x 0x07#8⟩
theorem ldVxKey (x : Reg) : Statement (.ldVxKey x) := ⟨by simp [rowOf, rows], and_F0FF_op_x_nn 0xF#4 x 0x0A#8⟩
theorem ldDtVx (x : Reg) : Statement (.ldDtVx x) := ⟨by simp [rowOf, rows], and_F0FF_op_x_nn 0xF#4 x 0x15#8⟩
theorem ldStVx (x : Reg) : Statement (.ldStVx x) := ⟨by simp [rowOf, rows], and_F0FF_op_x_nn 0xF#4 x 0x18#8⟩
theorem addI (x : Reg) : Statement (.addI x) := ⟨by simp [rowOf, rows], and_F0FF_op_x_nn 0xF#4 x 0x1E#8⟩
theorem ldFont (x : Reg) : Statement (.ldFont x) := ⟨by simp [rowOf, rows], and_F0FF_op_x_nn 0xF#4 x 0x29#8⟩
theorem ldBcd (x : Reg) : Statement (.ldBcd x) := ⟨by simp [rowOf, rows], and_F0FF_op_x_nn 0xF#4 x 0x33#8⟩
theorem stRegs (x : Reg) : Statement (.stRegs x) := ⟨by simp [rowOf, rows], and_F0FF_op_x_nn 0xF#4 x 0x55#8⟩
theorem ldRegs (x : Reg) : Statement (.ldRegs x) := ⟨by simp [rowOf, rows], and_F0FF_op_x_nn 0xF#4 x 0x65#8⟩

end Sys2Proof.Laws.EncodingRow
end

