-- ==== Sys2Proof/Laws/Step.lean ====
section
/-! SUPPORT. Everything one step can do, said once, and the two outcomes of the reset sequence. -/

namespace Sys2Proof.Machine

/-- Where the host is idle, using up its slot changes nothing else. -/
theorem CoreTurn.withInputs {s : State} {rest : List HostEvent} (h : s.inputs = [] ∧ rest = []) :
    { s with inputs := rest } = s := by
  obtain ⟨h1, h2⟩ := h
  rw [h2, ← h1]

/-- A step of a RUNNING machine whose host is idle is a cycle. -/
theorem step_running {s : State} {rest : List HostEvent} (h : CoreTurn s rest) (hr : s.runState = .running) :
    step s = cycle { s with inputs := rest } := by
  rcases h with h | h
  · simp [step, advance, h, ownMove, hr]
  · rw [CoreTurn.withInputs h]
    simp [step, advance, h.1, ownMove, hr]

/-- A step of a machine in KEY_WAIT whose host is idle is a moment of the hold. -/
theorem step_keyWait {s : State} {rest : List HostEvent} {x : Reg} (h : CoreTurn s rest) (hr : s.runState = .keyWait x) :
    step s = .next (heldMove x { s with inputs := rest }) := by
  rcases h with h | h
  · simp [step, advance, h, ownMove, hr]
  · rw [CoreTurn.withInputs h]
    simp [step, advance, h.1, ownMove, hr]

/-- An event of the host is a step of its own. -/
theorem step_hostEvent {s : State} {e : HostEvent} {rest : List HostEvent} (h : s.inputs = e :: rest) (he : e ≠ .idle) :
    step s = .next (hostEffect e { s with inputs := rest }) := by
  cases e <;> first | exact absurd rfl he | simp [step, advance, h]

/-- The steps that answer a next state. -/
inductive StepTo (s : State) : State → Prop
  /-- an event of the host -/
  | host (e : HostEvent) (rest : List HostEvent) (h : s.inputs = e :: rest) (he : e ≠ .idle) :
      StepTo s (hostEffect e { s with inputs := rest })
  /-- a cycle -/
  | cycle (rest : List HostEvent) (t : State) (h : CoreTurn s rest) (hr : s.runState = .running)
      (ht : cycle { s with inputs := rest } = .next t) : StepTo s t
  /-- a moment of the hold -/
  | held (rest : List HostEvent) (x : Reg) (h : CoreTurn s rest) (hr : s.runState = .keyWait x) :
      StepTo s (heldMove x { s with inputs := rest })
  /-- an idle slot of a machine that has no move -/
  | idle (rest : List HostEvent) (h : s.inputs = .idle :: rest) (hr : s.runState = .stopped ∨ s.runState = .halted) :
      StepTo s { s with inputs := rest }

/-- Every step that answers a next state is one of these. -/
theorem step_to {s t : State} (h : step s = .next t) : StepTo s t := by
  cases hi : s.inputs with
  | nil =>
    have hc : CoreTurn s [] := .inr ⟨hi, rfl⟩
    cases hr : s.runState with
    | stopped => simp [step, advance, hi, ownMove, hr] at h
    | halted => simp [step, advance, hi, ownMove, hr] at h
    | running => exact .cycle [] t hc hr ((step_running hc hr).symm.trans h)
    | keyWait x =>
      rw [step_keyWait hc hr] at h
      cases h
      exact .held [] x hc hr
  | cons e rest =>
    by_cases he : e = .idle
    · subst he
      have hc : CoreTurn s rest := .inl hi
      cases hr : s.runState with
      | stopped =>
        simp only [step, advance, hi, ownMove, hr] at h
        cases h
        rw [← hr]
        exact .idle rest hi (.inl hr)
      | halted =>
        simp only [step, advance, hi, ownMove, hr] at h
        cases h
        rw [← hr]
        exact .idle rest hi (.inr hr)
      | running => exact .cycle rest t hc hr ((step_running hc hr).symm.trans h)
      | keyWait x =>
        rw [step_keyWait hc hr] at h
        cases h
        exact .held rest x hc hr
    · rw [step_hostEvent hi he] at h
      cases h
      exact .host e rest hi he

/-- Reset clears registers, pc and stack, and keeps the configuration, the ROM and the model's own fields. -/
theorem resetMachine_fields (s : State) :
    (resetMachine s).v = Vector.replicate nregs 0 ∧ (resetMachine s).index = 0 ∧ (resetMachine s).dt = 0 ∧
      (resetMachine s).st = 0 ∧ (resetMachine s).pc = BitVec.ofNat pcwidth s.cfg.origin ∧ (resetMachine s).stack = [] ∧
      (resetMachine s).rom = s.rom ∧ (resetMachine s).cfg = s.cfg ∧ (resetMachine s).inputs = s.inputs ∧
      (resetMachine s).calls = s.calls ∧ (resetMachine s).fresh = s.fresh := by
  unfold resetMachine
  split
  · split <;> simp
  · simp

/-- Memory, run state and latch after reset: the font and the ROM and RUNNING; or, where the ROM does not fit, the font alone; or,
where the configuration puts the font outside memory, nothing; the last two HALTED. -/
theorem resetMachine_cases (s : State) :
    (admitted s.cfg.capacity s.cfg.fontBase s.cfg.fontData.length = true ∧ admitted s.cfg.capacity s.cfg.origin s.rom.length = true ∧
      (resetMachine s).mem = Memory.writeBytes (Memory.writeBytes [] s.cfg.fontBase s.cfg.fontData) s.cfg.origin s.rom ∧
      (resetMachine s).runState = .running ∧ (resetMachine s).err = none) ∨
    (admitted s.cfg.capacity s.cfg.fontBase s.cfg.fontData.length = true ∧ admitted s.cfg.capacity s.cfg.origin s.rom.length = false ∧
      (resetMachine s).mem = Memory.writeBytes [] s.cfg.fontBase s.cfg.fontData ∧
      (resetMachine s).runState = .halted ∧ (resetMachine s).err = some (.invalidAddress (BitVec.ofNat 16 s.cfg.origin))) ∨
    (admitted s.cfg.capacity s.cfg.fontBase s.cfg.fontData.length = false ∧ (resetMachine s).mem = [] ∧
      (resetMachine s).runState = .halted ∧
      (resetMachine s).err = some (.invalidAddress (BitVec.ofNat 16 s.cfg.fontBase))) := by
  unfold resetMachine
  cases h : admitted s.cfg.capacity s.cfg.fontBase s.cfg.fontData.length
  · simp
  · cases h' : admitted s.cfg.capacity s.cfg.origin s.rom.length <;> simp

end Sys2Proof.Machine
end

