-- ==== Sys2Proof/Tests/Slice0.lean ====
section
/-! SUPPORT. Tests: the checks of WellFormed.lean on ill-formed terms, words decoded, one step of each instruction with the values
of the spec's own tables (spec/95_test_vectors.md, cited as T2.2 to T2.10), and for each obligation that has hypotheses a state
that meets them. Every expected value is the spec's or computed by hand from its rule. -/

open Sys2Proof Sys2Proof.Machine

namespace Sys2Proof.Tests

/-! ### Helpers -/

/-- A running machine with nothing in memory and a host that does nothing more. -/
def base : State := { State.powerOn defaultConfig [] [] with runState := .running }

/-- `base` with some registers set. -/
def withV (l : List (Reg × Byte)) : State := l.foldl (fun s p => s.setV p.1 p.2) base

/-- `withV` with I set too. -/
def withIV (a : Word) (l : List (Reg × Byte)) : State := { withV l with index := a }

/-- What is to be seen of the next state; nothing where there is none. -/
def look {α : Type} (o : Answer) (f : State → α) : Option α :=
  match o with
  | .next t => some (f t)
  | .fault _ => none
  | .refused _ => none

/-- One step that runs the word `w`, stored at pc (0x200 in `base`). -/
def run (w : Nat) (s : State) : Answer := step (s.withFetchWord 16 w)

/-- What a raised error is to look like: the latch, the run state, pc. -/
def errorOf (o : Answer) : Option (Option Error × RunState × Word) := look o fun t => (t.err, t.runState, t.pc)

/-! ### Checks that refuse ill-formed terms -/

theorem test_wf_config_default : Config.wf defaultConfig = true := by decide
theorem test_wf_config_font_past_origin : Config.wf { defaultConfig with fontBase := 0x1B1 } = false := by decide
theorem test_wf_config_font_too_short : Config.wf { defaultConfig with fontData := [0xF0] } = false := by decide
theorem test_wf_config_origin_past_memory : Config.wf { defaultConfig with capacity := 0x201 } = false := by decide
theorem test_wf_config_capacity_past_addresses : Config.wf { defaultConfig with capacity := 65537 } = false := by decide
theorem test_wf_memory_unsorted : Memory.wf 4095 [(5, 1), (4, 1)] = false := by decide
theorem test_wf_memory_repeated : Memory.wf 4095 [(5, 1), (5, 2)] = false := by decide
theorem test_wf_memory_lists_cleared_byte : Memory.wf 4095 [(5, 0)] = false := by decide
theorem test_wf_memory_outside : Memory.wf 4095 [(4094, 1)] = true ∧ Memory.wf 4095 [(4095, 1)] = false := by decide
theorem test_wf_state_memory : ({ base with mem := [(4095, 1)] } : State).wf = false := by decide
theorem test_wf_state_stack_too_deep : ({ base with stack := List.replicate 17 0 } : State).wf = false := by decide
theorem test_wf_state_latch_without_halt : ({ base with err := some .stackOverflow } : State).wf = false := by decide
theorem test_wf_state_halt_without_latch : ({ base with runState := .halted } : State).wf = false := by decide
theorem test_wf_state_stack_entry : ({ base with stack := [4096] } : State).wf = false := by decide
theorem test_wf_state_pc : ({ base with pc := 0x10FF } : State).wf = false := by decide
theorem test_wf_state_base : base.wf = true := by decide

/-! ### Memory's canonical form -/

theorem test_memory_write_sorts : Memory.write [(2, 7), (9, 8)] 5 1 = [(2, 7), (5, 1), (9, 8)] := by decide
theorem test_memory_write_zero_removes : Memory.write [(2, 7), (9, 8)] 2 0 = [(9, 8)] := by decide

/-! ### Decoding: one word of every row, from the mask and match columns of 30_encoding.md R96 -/

theorem test_decode_fields : fields 0xD123 = ⟨0xD, 0x1, 0x2, 0x3, 0x23, 0x123⟩ := by decide
theorem test_decode_system :
    decodeTableWord 16 0b0000000011100000 = some .cls ∧ decodeTableWord 16 0b0000000011101110 = some .ret := by decide
theorem test_decode_jumps :
    decodeTableWord 16 0b0001111111111111 = some (.jp 0xFFF) ∧ decodeTableWord 16 0x2000 = some (.call 0x000) ∧
    decodeTableWord 16 0xB123 = some (.jpV0 0x123) := by decide
theorem test_decode_skips :
    decodeTableWord 16 0b0011101011111111 = some (.seImm 0xA 0xFF) ∧ decodeTableWord 16 0x4342 = some (.sneImm 3 0x42) ∧
    decodeTableWord 16 0x5AB0 = some (.seReg 0xA 0xB) ∧ decodeTableWord 16 0x9120 = some (.sneReg 1 2) := by decide
theorem test_decode_key_skips :
    decodeTableWord 16 0b1110111110011110 = some (.skp 0xF) ∧ decodeTableWord 16 0xE0A1 = some (.sknp 0) := by decide
theorem test_decode_register_immediate :
    decodeTableWord 16 0b0110101001111111 = some (.ldImm 0xA 0x7F) ∧ decodeTableWord 16 0x7005 = some (.addImm 0 5) ∧
    decodeTableWord 16 0xC10F = some (.rnd 1 0x0F) := by decide
theorem test_decode_alu :
    decodeTableWord 16 0b1000101010110000 = some (.ldReg 0xA 0xB) ∧ decodeTableWord 16 0x8AB1 = some (.orReg 0xA 0xB) ∧
    decodeTableWord 16 0x8AB2 = some (.andReg 0xA 0xB) ∧ decodeTableWord 16 0x8AB3 = some (.xorReg 0xA 0xB) ∧
    decodeTableWord 16 0x8014 = some (.addReg 0 1) := by decide
theorem test_decode_alu_with_borrow_and_shift :
    decodeTableWord 16 0x8AB5 = some (.sub 0xA 0xB) ∧ decodeTableWord 16 0x8AB6 = some (.shr 0xA 0xB) ∧
    decodeTableWord 16 0x8AB7 = some (.subn 0xA 0xB) ∧ decodeTableWord 16 0x8ABE = some (.shl 0xA 0xB) := by decide
theorem test_decode_index :
    decodeTableWord 16 0b1010001100000000 = some (.ldI 0x300) ∧ decodeTableWord 16 0xF21E = some (.addI 2) ∧
    decodeTableWord 16 0xF429 = some (.ldFont 4) := by decide
theorem test_decode_index_memory :
    decodeTableWord 16 0b1111000000110011 = some (.ldBcd 0) ∧ decodeTableWord 16 0xF255 = some (.stRegs 2) ∧
    decodeTableWord 16 0xFF65 = some (.ldRegs 0xF) := by decide
theorem test_decode_timers_keyboard :
    decodeTableWord 16 0b1111001100000111 = some (.ldVxDt 3) ∧ decodeTableWord 16 0xF00A = some (.ldVxKey 0) ∧
    decodeTableWord 16 0xF315 = some (.ldDtVx 3) ∧ decodeTableWord 16 0xF318 = some (.ldStVx 3) := by decide
theorem test_decode_display :
    decodeTableWord 16 0b1101000100100101 = some (.drw 1 2 5) ∧ decodeTableWord 16 0xD000 = some (.drw 0 0 0) := by decide
theorem test_decode_invalid_system_and_skips :
    [0x0000, 0x00E1, 0x00EF, 0x00FE, 0x01E0, 0x0EE0, 0x0FEE, 0x0123, 0x5121, 0x512F, 0x9121].all
      (fun w => decodeTableWord 16 w == none) = true := by decide
theorem test_decode_invalid_alu :
    [0x8008, 0x8129, 0x812A, 0x812B, 0x812C, 0x812D, 0x800F].all (fun w => decodeTableWord 16 w == none) = true := by decide
theorem test_decode_invalid_key_and_misc :
    [0xE000, 0xE19F, 0xE1A0, 0xE1A2, 0xE09D, 0xF000, 0xF108, 0xF11F, 0xF130, 0xF175, 0xF185, 0xF1FF, 0xFFFF].all
      (fun w => decodeTableWord 16 w == none) = true := by decide
theorem test_decode_truncated : decodeBytes [0x60] = .error (.truncated [0x60]) := by decide
theorem test_encode_high_byte_first : encodeBytes (.ldImm 0 0x0A) = [0x60, 0x0A] := by decide

/-! ### Fetch (T2.3) -/

theorem test_fetch_high_byte_first : fetch { base with mem := [(0x200, 0x12), (0x201, 0x34)] } = .ok 0x1234 := by decide
theorem test_fetch_odd_pc :
    look (step { base with pc := 0x201, mem := [(0x201, 0x60), (0x202, 0x07)] }) (fun t => (t.getV 0, t.pc)) =
      some (7, 0x203) := by decide
theorem test_fetch_last_address : fetch { base with pc := 0xFFD, mem := [(0xFFD, 0x12)] } = .ok 0x1200 := by decide
theorem test_fetch_past_the_end :
    errorOf (step { base with pc := 0xFFE }) = some (some (.invalidAddress 0xFFE), .halted, 0xFFE) := by decide
theorem test_invalid_instruction_halts :
    errorOf (run 0xFFFF base) = some (some (.invalidInstruction 0xFFFF), .halted, 0x202) := by decide
theorem test_reset_runs_placed_word :
    look (step (State.reset.withFetchWord 16 0x6A7F)) (fun t => (t.getV 0xA, t.pc)) = some (0x7F, 0x202) := by decide

/-! ### The latch's status value (60_exceptions.md R221) and the parameters (00_scope.md R6) -/

theorem test_errCode : look (run 0x6A7F base) (·.errCode) = some 0 ∧ look (run 0xFFFF base) (·.errCode) = some 1 ∧
    look (run 0xF033 (withIV 4093 [])) (·.errCode) = some 2 ∧
    look (run 0x2300 { base with stack := List.replicate 16 0x300 }) (·.errCode) = some 3 ∧
    look (run 0x00EE base) (·.errCode) = some 4 := by decide
theorem test_default_parameters : defaultConfig.capacity = 4095 ∧ defaultConfig.origin = 0x200 ∧ defaultConfig.stackDepth = 16 ∧
    defaultConfig.nkeys = 16 ∧ nregs = 16 ∧ vwidth = 8 ∧ iwidth = 16 ∧ pcwidth = 16 ∧ iword = 16 := by decide
theorem test_other_capacity : look (run 0xF055 { withIV 4095 [(0, 7)] with cfg := { defaultConfig with capacity := 4096 } })
    (fun t => (Memory.read t.mem 4095, t.err)) = some (7, none) := by decide
theorem test_other_stack_depth : errorOf (run 0x2300 { base with stack := [0x300], cfg := { defaultConfig with stackDepth := 1 } }) =
    some (some .stackOverflow, .halted, 0x202) := by decide

/-! ### Control flow (T2.4) -/

theorem test_jp : look (run 0x1234 base) (·.pc) = some 0x234 := by decide
theorem test_jp_self : look (run 0x1200 base) (·.pc) = some 0x200 := by decide
theorem test_call : look (run 0x2300 base) (fun t => (t.stack, t.pc)) = some ([0x202], 0x300) := by decide
theorem test_call_seventeenth :
    errorOf (run 0x2300 { base with stack := List.replicate 16 0x300 }) = some (some .stackOverflow, .halted, 0x202) := by decide
theorem test_ret_last_in_first_out :
    look (run 0x00EE { base with pc := 0x300, stack := [0x310, 0x202] }) (fun t => (t.stack, t.pc)) = some ([0x202], 0x310) := by
  decide
theorem test_ret_empty : errorOf (run 0x00EE { base with pc := 0x300 }) = some (some .stackUnderflow, .halted, 0x302) := by decide
theorem test_jpV0_not_reduced : look (run 0xBFFF (withV [(0, 0xFF)])) (·.pc) = some 0x10FE := by decide
theorem test_jpV0_adds_V0_only : look (run 0xB2FF (withV [(0, 0x01), (2, 0x77)])) (·.pc) = some 0x300 := by decide

/-! ### Skips (T2.5) -/

theorem test_seImm : look (run 0x3342 (withV [(3, 0x42)])) (·.pc) = some 0x204 ∧
    look (run 0x3342 (withV [(3, 0x43)])) (·.pc) = some 0x202 := by decide
theorem test_seImm_to_the_end :
    look (run 0x3000 { base with pc := 0xFFD }) (fun t => (t.pc, t.err)) = some (0x1001, none) := by decide
theorem test_sneImm : look (run 0x4342 (withV [(3, 0x42)])) (·.pc) = some 0x202 ∧
    look (run 0x4342 base) (·.pc) = some 0x204 := by decide
theorem test_seReg : look (run 0x5120 (withV [(1, 7), (2, 7)])) (·.pc) = some 0x204 ∧
    look (run 0x5120 (withV [(1, 7), (2, 8)])) (·.pc) = some 0x202 := by decide
theorem test_sneReg : look (run 0x9120 (withV [(1, 7), (2, 8)])) (·.pc) = some 0x204 ∧
    look (run 0x9120 (withV [(1, 7), (2, 7)])) (·.pc) = some 0x202 := by decide
theorem test_skp : look (exec (.skp 5) (withV [(5, 0x0A)])) (fun t => (t.pc, t.calls)) =
    some (if Config.keyPressed 0 = true then 0x202 else 0x200, [.isPressed 10]) := by
  have h : look (exec (.skp 5) (withV [(5, 0x0A)])) (fun t => (t.pc, t.calls)) =
      some ((fun t => (t.pc, t.calls)) (((withV [(5, 0x0A)]).ask (.isPressed 10)).skipIf (Config.keyPressed 0 == true))) := rfl
  rw [h]
  cases Config.keyPressed 0 <;> rfl
theorem test_sknp : look (exec (.sknp 5) (withV [(5, 0x0A)])) (fun t => (t.pc, t.calls)) =
    some (if Config.keyPressed 0 = true then 0x200 else 0x202, [.isPressed 10]) := by
  have h : look (exec (.sknp 5) (withV [(5, 0x0A)])) (fun t => (t.pc, t.calls)) =
      some ((fun t => (t.pc, t.calls)) (((withV [(5, 0x0A)]).ask (.isPressed 10)).skipIf (Config.keyPressed 0 == false))) := rfl
  rw [h]
  cases Config.keyPressed 0 <;> rfl
theorem test_skp_out_of_range : exec (.skp 5) (withV [(5, 0x10)]) = .refused (.keyIndexOutOfRange 0x10) := rfl
theorem test_sknp_out_of_range : exec (.sknp 5) (withV [(5, 0x10)]) = .refused (.keyIndexOutOfRange 0x10) := rfl

/-! ### Register and immediate (T2.6) -/

theorem test_ldImm : look (run 0x6F55 base) (fun t => (t.getV 0xF, t.pc)) = some (0x55, 0x202) := by decide
theorem test_addImm_no_flag : look (run 0x7001 (withV [(0, 0xFF)])) (fun t => (t.getV 0, t.getV 0xF)) = some (0, 0) := by decide
theorem test_addImm_VF : look (run 0x7F01 (withV [(0xF, 0xFF)])) (·.getV 0xF) = some 0 := by decide

theorem test_rnd : look (exec (.rnd 1 0x0F) base) (fun t => (t.getV 1, t.calls)) =
    some (Config.randomByte 0 &&& 0x0F, [.draw8]) := rfl

/-! ### ALU (T2.7) -/

/-- V0 and VF after a word of family 8. -/
def v0vf (w : Nat) (s : State) : Option (Byte × Byte) := look (run w s) fun t => (t.getV 0, t.getV 0xF)

theorem test_ldReg : v0vf 0x8010 (withV [(0, 0x12), (1, 0x3C), (0xF, 9)]) = some (0x3C, 9) := by decide
theorem test_or : v0vf 0x8011 (withV [(0, 0xF0), (1, 0x0F), (0xF, 9)]) = some (0xFF, 9) := by decide
theorem test_and : v0vf 0x8012 (withV [(0, 0xF0), (1, 0x3C), (0xF, 9)]) = some (0x30, 9) := by decide
theorem test_xor : v0vf 0x8013 (withV [(0, 0xFF), (1, 0x0F), (0xF, 9)]) = some (0xF0, 9) := by decide
theorem test_addReg_carry : v0vf 0x8014 (withV [(0, 0xFF), (1, 0x01)]) = some (0x00, 1) ∧
    v0vf 0x8014 (withV [(0, 0xF0), (1, 0x0F)]) = some (0xFF, 0) := by decide
theorem test_addReg_VF_operand :
    look (run 0x81F4 (withV [(1, 0xFE), (0xF, 3)])) (fun t => (t.getV 1, t.getV 0xF)) = some (0x01, 1) := by decide
theorem test_sub : v0vf 0x8015 (withV [(0, 3), (1, 5)]) = some (0xFE, 0) ∧ v0vf 0x8015 (withV [(0, 5), (1, 5)]) = some (0, 1) := by
  decide
theorem test_sub_VF_destination : look (run 0x8F15 (withV [(0xF, 5), (1, 3)])) (·.getV 0xF) = some 1 := by decide
theorem test_subn : v0vf 0x8017 (withV [(0, 3), (1, 5)]) = some (2, 1) ∧ v0vf 0x8017 (withV [(0, 1), (1, 0)]) = some (0xFF, 0) := by
  decide
theorem test_subn_VF_destination : look (run 0x8F17 (withV [(0xF, 5), (1, 3)])) (·.getV 0xF) = some 0 := by decide
theorem test_shr_sources : v0vf 0x8016 (withV [(0, 5), (1, 0xF0)]) = some (2, 1) ∧
    v0vf 0x8016 { withV [(0, 5), (1, 0xF0)] with cfg := { defaultConfig with shiftSrc := .y } } = some (0x78, 0) := by decide
theorem test_shr_VF : look (run 0x8FF6 (withV [(0xF, 3)])) (·.getV 0xF) = some 1 := by decide
theorem test_shl_sources : v0vf 0x801E (withV [(0, 5), (1, 0xF0)]) = some (0x0A, 0) ∧
    v0vf 0x801E { withV [(0, 5), (1, 0xF0)] with cfg := { defaultConfig with shiftSrc := .y } } = some (0xE0, 1) := by decide
theorem test_shl_VF : look (run 0x8FFE (withV [(0xF, 0x80)])) (·.getV 0xF) = some 1 := by decide

/-! ### Index register and memory (T2.8) -/

theorem test_ldI : look (run 0xAFFF base) (·.index) = some 0xFFF := by decide
theorem test_addI : look (run 0xF21E (withIV 0xFFFF [(2, 1)])) (fun t => (t.index, t.getV 0xF)) = some (0, 0) ∧
    look (run 0xF21E (withIV 0xFFF [(2, 0xFF)])) (·.index) = some 0x10FE := by decide
theorem test_ldFont : look (run 0xF429 (withV [(4, 0x0F)])) (·.index) = some 0x4B := by decide
theorem test_ldFont_out_of_range : exec (.ldFont 4) (withV [(4, 0x10)]) = .refused (.digitOutOfRange 0x10) := rfl
theorem test_ldBcd : look (run 0xF033 (withIV 0x300 [(0, 255)])) (fun t => Memory.readBytes t.mem 0x300 4) =
    some [2, 5, 5, 0] := by decide
theorem test_ldBcd_bounds : look (run 0xF033 (withIV 4092 [(0, 123)])) (fun t => Memory.readBytes t.mem 4092 3) = some [1, 2, 3] ∧
    look (run 0xF033 (withIV 4093 [(0, 123)])) (fun t => (Memory.read t.mem 4093, t.err)) =
      some (0, some (.invalidAddress 4093)) := by decide
theorem test_stRegs :
    look (run 0xF255 (withIV 0x300 [(0, 0x11), (1, 0x22), (2, 0x33), (3, 0x44)]))
      (fun t => (Memory.readBytes t.mem 0x300 4, t.index)) = some ([0x11, 0x22, 0x33, 0], 0x300) := by decide
theorem test_stRegs_bounds : look (run 0xF155 (withIV 0xFFE [(0, 1)])) (fun t => (Memory.read t.mem 0xFFE, t.err)) =
    some (0, some (.invalidAddress 0xFFE)) := by decide
theorem test_ldRegs :
    look (run 0xF265 { withIV 0x300 [(3, 9)] with mem := [(0x300, 2), (0x301, 5), (0x302, 5), (0x303, 9)] })
      (fun t => ([t.getV 0, t.getV 1, t.getV 2, t.getV 3], t.index)) = some ([2, 5, 5, 9], 0x300) := by decide
theorem test_ldRegs_bounds : look (run 0xF165 { withIV 0xFFE [(0, 1)] with mem := [(0xFFE, 0x5A)] })
    (fun t => (t.getV 0, t.err)) = some (1, some (.invalidAddress 0xFFE)) := by decide

/-! ### Timers, keyboard, display (T2.9, T2.10) -/

theorem test_ldDtVx : look (run 0xF315 (withV [(3, 0x3C)])) (fun t => (t.dt, t.st)) = some (0x3C, 0) := by decide
theorem test_ldVxDt : look (run 0xF307 { base with dt := 0x3C }) (·.getV 3) = some 0x3C := by decide
theorem test_ldStVx : look (run 0xF318 (withV [(3, 5)])) (fun t => (t.dt, t.st)) = some (0, 5) := by decide
theorem test_ldVxKey : look (run 0xF20A (withV [(2, 9)])) (fun t => (t.runState, t.pc, t.getV 2, t.calls)) =
    some (.keyWait 2, 0x202, 9, [.waitForKeyPress]) := by decide
theorem test_key_delivery : (deliverKey 2 7 { base with runState := .keyWait 2 }).getV 2 = 7 ∧
    (deliverKey 2 7 { base with runState := .keyWait 2 }).runState = .running := by decide
theorem test_cls : look (run 0x00E0 base) (fun t => (t.calls, t.pc)) = some ([.clear], 0x202) := by decide
theorem test_drw_empty_sprite : look (run 0xD120 (withIV 0xFFE [(1, 3), (2, 4), (0xF, 9)])) (fun t => (t.calls, t.getV 0xF)) =
    some ([.drawSprite [] 3 4], 0) := by decide
theorem test_drw_old_VF_is_coordinate :
    look (run 0xDF12 { withIV 0x300 [(0xF, 9), (1, 2)] with mem := [(0x300, 0xF0), (0x301, 0x90)] }) (·.calls) =
      some [.drawSprite [0xF0, 0x90] 9 2] := by decide
theorem test_drw_answer : look (exec (.drw 1 2 2) (withIV 0x300 [])) (·.getV 0xF) =
    some (flagByte (Config.spriteErased 0)) := rfl

/-! ### Witnesses: for each obligation with hypotheses, states and operands that meet them, at the ends of their ranges -/

/-- `base` with one instruction word in memory at an address, and pc there. -/
def at_ (pc : Word) (hi lo : Byte) : State := { base with pc := pc, mem := Memory.writeBytes [] pc.toNat [hi, lo] }

/-- A full call stack. -/
def full : State := { base with stack := List.replicate 16 0x202 }

/-- A machine halted by an error. -/
def halted : State := { base with runState := .halted, err := some .stackUnderflow }

/-- Waiting for a key for V2. -/
def waiting : State := { base with runState := .keyWait 2 }

theorem core_turn_base : CoreTurn base [] := .inr ⟨rfl, rfl⟩

theorem test_witness_DispatchIsTheTable :
    dispatch 0x8014 = some (.addReg 0 1) ∧ ⟨0xF00F, 0x8004⟩ ∈ rows ∧ 0x8014#16 &&& 0xF00F = 0x8004 := by decide
theorem test_witness_KeyAndMiscFamiliesByLowByte :
    (at_ 0xFFD 0xFF 0xFF).runState = .running ∧ CoreTurn (at_ 0xFFD 0xFF 0xFF) [] ∧ (at_ 0xFFD 0xFF 0xFF).pc.toNat + 2 = 4095 ∧
      Memory.read (at_ 0xFFD 0xFF 0xFF).mem 0xFFD = 0xFF ∧ Memory.read (at_ 0xFFD 0xFF 0xFF).mem 0xFFE = 0xFF :=
  ⟨rfl, .inr ⟨rfl, rfl⟩, rfl, rfl, rfl⟩
theorem test_witness_CycleOfTheScheduler_fetch :
    (at_ 0xFFE 0 0).runState = .running ∧ CoreTurn (at_ 0xFFE 0 0) [] ∧ 4095 < (at_ 0xFFE 0 0).pc.toNat + 2 ∧
      4095 ≤ (at_ 0xFFF 0 0).pc.toNat := ⟨rfl, .inr ⟨rfl, rfl⟩, by decide, by decide⟩
theorem test_witness_CycleOfTheScheduler_dispatch :
    (at_ 0xFFD 0x12 0).runState = .running ∧ CoreTurn (at_ 0xFFD 0x12 0) [] ∧ (at_ 0xFFD 0x12 0).pc.toNat + 2 ≤ 4095 ∧
      dispatch (BitVec.ofNat 16 (0x12 * 256 + 0)) = some (.jp 0x200) ∧ dispatch (BitVec.ofNat 16 (0 * 256 + 0)) = none :=
  ⟨rfl, .inr ⟨rfl, rfl⟩, by decide, by decide, by decide⟩
theorem test_witness_StepRunsTheDecodedInstruction :
    (at_ 0xFFD 0x60 7).runState = .running ∧ CoreTurn (at_ 0xFFD 0x60 7) [] ∧ (at_ 0xFFD 0x60 7).pc.toNat + 2 ≤ 4095 ∧
      decodeBytes (Memory.readBytes (at_ 0xFFD 0x60 7).mem 0xFFD 2) = .ok (.ldImm 0 7, []) :=
  ⟨rfl, .inr ⟨rfl, rfl⟩, by decide, by decide⟩
theorem test_witness_PlacedInstructionRunsNext :
    Config.wf State.reset.cfg = true ∧ Memory.wf State.reset.cfg.capacity State.reset.mem = true ∧
    ({ base with pc := 0xFFD } : State).pc.toNat + 2 ≤ 4095 := by decide
theorem test_witness_NoEnabledStepEndsTheRun :
    halted.inputs = [] ∧ halted.runState = .halted ∧ ({ base with runState := .stopped } : State).runState = .stopped := by decide
theorem test_witness_RaisingInstructionChangesNothingElse :
    ∃ t, exec .ret base = .next t ∧ base.err = none ∧ t.err ≠ none := ⟨_, rfl, rfl, by decide⟩
theorem test_witness_ErrorsByInstruction_address :
    ∃ t, exec (.ldBcd 0) (withIV 4093 []) = .next t ∧ (withIV 4093 []).err = none ∧ t.err = some (.invalidAddress 4093) :=
  ⟨_, rfl, rfl, rfl⟩
theorem test_witness_ErrorsByInstruction_stack :
    (∃ t, exec (.call 0) full = .next t ∧ full.err = none ∧ t.err = some .stackOverflow) ∧
      ∃ t, exec .ret base = .next t ∧ base.err = none ∧ t.err = some .stackUnderflow := ⟨⟨_, rfl, rfl, rfl⟩, _, rfl, rfl, rfl⟩
theorem test_witness_RefusedAccessTransfersNothing :
    (accessLen (.ldBcd 0) = some 3 ∧ 4095 < (withIV 4093 []).index.toNat + 3) ∧
      (accessLen (.drw 0 0 0) = some 0 ∧ 4095 ≤ (withIV 4095 []).index.toNat) := by decide
theorem test_witness_OnlyResetLeavesHalted : ∃ t, halted.runState = .halted ∧ halted.cfg.timerTick = .absent ∧
    step { halted with inputs := [.idle] } = .next t := ⟨_, rfl, rfl, rfl⟩
theorem test_witness_PowerOnIsStopped : ∃ t, (State.powerOn defaultConfig [] [.idle]).runState = .stopped ∧
    step (State.powerOn defaultConfig [] [.idle]) = .next t := ⟨_, rfl, rfl⟩
theorem test_witness_HostEventTable :
    ({ base with inputs := [.stop] } : State).inputs = [.stop] ∧ base.runState = .running ∧ halted.runState = .halted ∧
      (State.powerOn defaultConfig [] [.start]).inputs = [.start] ∧
      (State.powerOn defaultConfig [] [.start]).runState = .stopped ∧ ({ base with inputs := [.reset] } : State).inputs = [.reset] ∧
      ({ base with inputs := [.supplyRom [1]] } : State).inputs = [.supplyRom [1]] := by decide
theorem test_witness_ResetState :
    ({ halted with inputs := [.reset], rom := List.replicate 3583 1 } : State).inputs = [.reset] ∧
      Config.wf halted.cfg = true ∧ (List.replicate 3583 (1 : Byte)).length ≤ 3583 :=
  ⟨rfl, by decide, Nat.le_of_eq List.length_replicate⟩
theorem test_witness_ResetIsIdempotentAtAnyTime :
    ({ halted with inputs := [.reset, .reset] } : State).inputs = [.reset, .reset] ∧
      ({ base with inputs := [.reset] } : State).inputs = [.reset] ∧ base.cfg = halted.cfg ∧ base.rom = halted.rom := by decide
theorem test_witness_OversizedRomHalts :
    ({ base with inputs := [.reset], rom := List.replicate 3584 1 } : State).inputs = [.reset] ∧ Config.wf base.cfg = true ∧
      3583 < (List.replicate 3584 (1 : Byte)).length :=
  ⟨rfl, by decide, by rw [List.length_replicate]; omega⟩
theorem test_witness_HoldEndsByKeyResetOrStop : ∃ t, waiting.runState = .keyWait 2 ∧ step waiting = .next t := ⟨_, rfl, rfl⟩
theorem test_witness_KeyDeliveryCompletesTheWait : waiting.runState = .keyWait 2 ∧ CoreTurn waiting [] := ⟨rfl, .inr ⟨rfl, rfl⟩⟩
theorem test_witness_TimerTickStopsAtZero :
    ({ base with inputs := [.tick], cfg := { defaultConfig with timerTick := .present }, dt := 0, st := 255 } : State).inputs = [.tick] ∧
      ({ defaultConfig with timerTick := .present } : Config).timerTick = .present ∧ defaultConfig.timerTick = .absent := by decide
theorem test_witness_TimersChangeOnlyByTheirWriters : ∃ t, (at_ 0x200 0xF3 0x15).cfg.timerTick = .absent ∧
    step (at_ 0x200 0xF3 0x15) = .next t := ⟨_, rfl, rfl⟩
theorem test_witness_StepKeepsInvariant : ∃ t, (at_ 0xFFD 0xBF 0xFF).wf = true ∧ step (at_ 0xFFD 0xBF 0xFF) = .next t :=
  ⟨_, by decide, rfl⟩
theorem test_witness_CopyAndLogic : (Instr.orReg 0xF 0, base.getV 0xF ||| base.getV 0) ∈
    [(Instr.ldReg 0xF 0, base.getV 0), (.orReg 0xF 0, base.getV 0xF ||| base.getV 0), (.andReg 0xF 0, base.getV 0xF &&& base.getV 0),
      (.xorReg 0xF 0, base.getV 0xF ^^^ base.getV 0)] := by decide
theorem test_witness_ShiftsByOne :
    (withV [(0, 5)]).getV 0 = (if (withV [(0, 5)]).cfg.shiftSrc = .x then (withV [(0, 5)]).getV 0 else (withV [(0, 5)]).getV 1) := by
  decide
theorem test_witness_SkipOnKey : ((withV [(5, 15)]).getV 5).toNat < (withV [(5, 15)]).cfg.nkeys ∧
    (withV [(5, 16)]).cfg.nkeys ≤ ((withV [(5, 16)]).getV 5).toNat := by decide
theorem test_witness_CallPushesReturnAddress :
    ({ base with stack := List.replicate 15 0x202 } : State).stack.length < base.cfg.stackDepth ∧
      full.cfg.stackDepth ≤ full.stack.length := by decide
theorem test_witness_ReturnPopsTheStack : full.stack = 0x202 :: List.replicate 15 0x202 ∧ base.stack = [] := by decide
theorem test_witness_CallThenReturnComesBack :
    ({ base with stack := List.replicate 15 0x202 } : State).stack.length < base.cfg.stackDepth := by decide
theorem test_witness_FontAddress : ((withV [(4, 15)]).getV 4).toNat ≤ 15 ∧ Config.wf (withV [(4, 15)]).cfg = true ∧
    15 < ((withV [(4, 16)]).getV 4).toNat := by decide
theorem test_witness_StoreDecimalDigits :
    Memory.wf (withIV 4092 []).cfg.capacity (withIV 4092 []).mem = true ∧ (withIV 4092 []).index.toNat + 3 ≤ 4095 ∧
    4095 < (withIV 4093 []).index.toNat + 3 ∧ 4095 ≤ (withIV 0xFFFF []).index.toNat := by decide
theorem test_witness_StoreRegisterBlock : Memory.wf (withIV 4079 []).cfg.capacity (withIV 4079 []).mem = true ∧
    (withIV 4079 []).index.toNat + (0xF : Reg).toNat + 1 ≤ 4095 ∧ 4095 < (withIV 4080 []).index.toNat + (0xF : Reg).toNat + 1 := by
  decide
theorem test_witness_LoadRegisterBlock : (withIV 4094 []).index.toNat + (0 : Reg).toNat + 1 ≤ 4095 ∧
    4095 < (withIV 4094 []).index.toNat + (1 : Reg).toNat + 1 := by decide
theorem test_witness_StoreThenLoadRestoresRegisters : Memory.wf (withIV 4079 []).cfg.capacity (withIV 4079 []).mem = true ∧
    (withIV 4079 []).index.toNat + (0xF : Reg).toNat + 1 ≤ 4095 := by decide
theorem test_witness_StoredInstructionIsFetched : Config.wf (withIV 4079 []).cfg = true ∧
    Memory.wf (withIV 4079 []).cfg.capacity (withIV 4079 []).mem = true ∧
    (withIV 4079 []).index.toNat + (0xF : Reg).toNat + 1 ≤ 4095 ∧ (0xF : Reg) ≤ 0xF ∧ (0xF : Reg).toNat = (0xE : Reg).toNat + 1 := by
  decide
theorem test_witness_CheckedMemoryAccess :
    ((4094 : Word).toNat < 4095 ∧ (4094 : Word).toNat + 1 ≤ 4095) ∧ ¬ ((4095 : Word).toNat < 4095 ∧ (4095 : Word).toNat + 0 ≤ 4095) ∧
      Memory.wf base.cfg.capacity base.mem = true := by decide
theorem test_witness_DrawSendsSpriteAndSetsFlag : (withIV 4080 []).index.toNat < 4095 ∧
    (withIV 4080 []).index.toNat + (0xF : Nibble).toNat ≤ 4095 := by decide
theorem test_witness_RegistersReadAndWritten : ∃ t, exec (.addReg 0 1) base = .next t ∧ regsWritten (.addReg 0 1) 5 = false ∧
    regsRead base.cfg (.addReg 0 1) 0xF = false := ⟨_, rfl, by decide, by decide⟩
theorem test_witness_MemoryChangesOnlyWhereStored : ∃ t, exec (.stRegs 0) (withIV 4094 [(0, 7)]) = .next t ∧
    (4093 < (withIV 4094 [(0, 7)]).index.toNat ∨ (withIV 4094 [(0, 7)]).index.toNat + storeLen (.stRegs 0) ≤ 4093) :=
  ⟨_, rfl, by decide⟩
theorem test_witness_SpecialStateHasItsOwnWriters : ∃ t, exec (.ldDtVx 0) base = .next t := ⟨_, rfl⟩
theorem test_witness_PcAfterOneCycle : ∃ t, base.pc = 0x1FE + 2 ∧ base.err = none ∧ exec (.jpV0 0xFFF) base = .next t ∧ t.err = none :=
  ⟨_, by decide, rfl, rfl, rfl⟩
theorem test_witness_CallsComeFromTheirInstructions : ∃ t, exec .cls base = .next t := ⟨_, rfl⟩

end Sys2Proof.Tests
end

section
/-! The base case of the machine's invariant (`State.wf`): power-on and reset. -/

namespace Sys2Proof

/-- The parameters of R6 meet the constraints on them (20_memory.md R71). -/
theorem Config.wf_defaultConfig : Config.wf Machine.defaultConfig = true := by decide

/-- Under the constraints the font table lies in memory: it ends at or below ORIGIN. -/
theorem Config.font_le_capacity {c : Config} (h : Config.wf c = true) : c.fontBase + c.fontData.length ≤ c.capacity := by
  obtain ⟨hbase, hlen, horigin, -⟩ := (Config.wf_iff c).1 h
  omega

namespace Machine

/-- Under the constraints the font written into cleared memory is canonical memory. -/
theorem Memory.wf_font {c : Config} (h : Config.wf c = true) :
    Memory.wf c.capacity (Memory.writeBytes [] c.fontBase c.fontData) = true :=
  Memory.wf_writeBytes (m := []) rfl c.fontData (Config.font_le_capacity h)

/-- Power-on (70_reset_and_hazards.md R267) needs no constraint on the configuration: nothing is in memory or on the stack, and
pc is at most ORIGIN also where ORIGIN does not fit in a pc. -/
theorem State.wf_powerOn (cfg : Config) (rom : List Byte) (inputs : List HostEvent) :
    (State.powerOn cfg rom inputs).wf = true := by
  have hpc : (State.powerOn cfg rom inputs).pc.toNat ≤ cfg.origin := by
    simpa [State.powerOn] using Nat.mod_le cfg.origin (2 ^ pcwidth)
  refine (State.wf_iff _).2 ⟨rfl, Nat.zero_le _, ?latch, ?entries, .inr (.inr hpc)⟩
  case latch => simp [State.powerOn]
  case entries => simp [State.powerOn]

/-- Reset (10_state.md R41) writes the font into cleared memory and goes to RUNNING with an empty latch; the
rest is as after power-on. -/
theorem State.wf_reset : State.reset.wf = true := by
  have hmem : Memory.wf State.reset.cfg.capacity State.reset.mem = true :=
    Memory.wf_font Config.wf_defaultConfig
  obtain ⟨-, hstack, -, hentries, hpc⟩ := (State.wf_iff _).1 (State.wf_powerOn defaultConfig [] [])
  exact (State.wf_iff _).2 ⟨hmem, hstack, by decide, hentries, hpc⟩

end Machine

/-- Settles O27: the invariant at reset and after every power-on, with R6's numbers read off `defaultConfig`. -/
theorem invariantAtResetAndPowerOn : Obligations.InvariantAtResetAndPowerOn :=
  ⟨Machine.State.wf_reset, Config.wf_defaultConfig, rfl, rfl, rfl, rfl, rfl, Machine.State.wf_powerOn⟩

end Sys2Proof
end

section
/-! What one instruction leaves: the invariant (`State.wf`), and who writes the special registers (10_state.md R24 to R37). -/

namespace Sys2Proof

namespace Machine

/-- An instruction that answers a next state raised one of its errors, or it completed. -/
theorem exec_next {i : Instr} {s t : State} (h : exec i s = .next t) :
    (∃ e, RaisedBy i s e ∧ t = { s with err := some e, runState := .halted }) ∨ Completed i s t := by
  have hans := exec_answers i s
  rw [h] at hans
  cases hans with
  | raised e he => exact .inl ⟨e, he, rfl⟩
  | completed _ hc => exact .inr hc

/-- Taking an error keeps the invariant: the latch and HALTED are set together. -/
theorem State.wf_raised {s : State} (h : s.wf = true) (e : Error) :
    ({ s with err := some e, runState := .halted } : State).wf = true := by
  obtain ⟨hmem, hstack, -, hentries, hpc⟩ := (State.wf_iff s).1 h
  exact (State.wf_iff _).2 ⟨hmem, hstack, by simp, hentries, hpc⟩

/-- In a well-formed state that is not HALTED the latch is empty. -/
theorem State.err_eq_none_of_wf {s : State} (h : s.wf = true) (hr : s.runState ≠ .halted) : s.err = none := by
  obtain ⟨-, -, hlatch, -, -⟩ := (State.wf_iff s).1 h
  exact Option.not_isSome_iff_eq_none.1 fun he => hr (hlatch.1 he)

/-- An increment of pc does not grow it by more than the increment. -/
theorem toNat_add_le (a d : CodeAddr) : (a + d).toNat ≤ a.toNat + d.toNat := by
  rw [BitVec.toNat_add]
  exact Nat.mod_le _ _

/-- NNN as a value of pc is the same number. -/
theorem toNat_setWidth_addr12 (nnn : Addr12) : (nnn.setWidth pcwidth).toNat = nnn.toNat :=
  BitVec.toNat_setWidth_of_le (by decide)

/-- The sum of BNNN is at most 0x10FE (10_state.md R31): a byte and a 12-bit address. -/
theorem toNat_jpV0_le (b : Byte) (nnn : Addr12) :
    (b.setWidth pcwidth + nnn.setWidth pcwidth : CodeAddr).toNat ≤ 0x10FE := by
  have hb : (b.setWidth pcwidth).toNat = b.toNat := BitVec.toNat_setWidth_of_le (by decide)
  have hsum := toNat_add_le (b.setWidth pcwidth) (nnn.setWidth pcwidth)
  rw [hb, toNat_setWidth_addr12] at hsum
  have := byte_lt b
  have := nnn.isLt
  omega

/-- The entry a return takes: one of the stack, or 0. -/
theorem toNat_headD_le {stack : List CodeAddr} {cap : Nat} (h : ∀ a ∈ stack, a.toNat ≤ cap) : (stack.headD 0).toNat ≤ cap := by
  cases stack with
  | nil => exact Nat.zero_le _
  | cons a rest => exact h a List.mem_cons_self

/-- Where pc goes from a fetched instruction (10_state.md R31): a skip gets at most to CAPACITY + 2, a jump to 0x10FE. -/
theorem toNat_pcAfter_le {s : State} {a : CodeAddr} (i : Instr) (ha : a.toNat + 2 ≤ s.cfg.capacity)
    (hentries : ∀ e ∈ s.stack, e.toNat ≤ s.cfg.capacity) :
    (pcAfter a i s).toNat ≤ s.cfg.capacity + 2 ∨ (pcAfter a i s).toNat ≤ 0x10FE := by
  have htwo : (a + 2).toNat ≤ s.cfg.capacity + 2 := by
    have : (a + 2).toNat ≤ a.toNat + 2 := toNat_add_le a 2
    omega
  have hfour : (a + 4).toNat ≤ s.cfg.capacity + 2 := by
    have : (a + 4).toNat ≤ a.toNat + 4 := toNat_add_le a 4
    omega
  have haddr (nnn : Addr12) : (nnn.setWidth pcwidth).toNat ≤ 0x10FE := by
    have := nnn.isLt
    rw [toNat_setWidth_addr12]
    omega
  cases i with
  | jp nnn => exact .inr (haddr nnn)
  | call nnn => exact .inr (haddr nnn)
  | ret => exact .inl (Nat.le_add_right_of_le (toNat_headD_le hentries))
  | jpV0 nnn => exact .inr (toNat_jpV0_le _ nnn)
  | seImm | sneImm | seReg | sneReg | skp | sknp =>
    left
    simp only [pcAfter]
    split
    · exact hfour
    · exact htwo
  | _ => exact .inl htwo

/-- A completed instruction keeps canonical memory: what it stores is inside memory. -/
theorem Completed.wf_mem {i : Instr} {s t : State} (h : Completed i s t) (hs : Memory.wf s.cfg.capacity s.mem = true) :
    Memory.wf s.cfg.capacity t.mem = true := by
  rcases h.mem with hmem | ⟨bytes, -, hin, hmem⟩ <;> rw [hmem]
  · exact hs
  · exact Memory.wf_writeBytes hs bytes hin

/-- A completed instruction keeps the bounds of the stack: it pushes pc onto a stack that has room, or drops an entry. -/
theorem Completed.stack_ok {i : Instr} {s t : State} (h : Completed i s t) (hlen : s.stack.length ≤ s.cfg.stackDepth)
    (hentries : ∀ a ∈ s.stack, a.toNat ≤ s.cfg.capacity) (hpc : s.pc.toNat ≤ s.cfg.capacity) :
    t.stack.length ≤ s.cfg.stackDepth ∧ ∀ a ∈ t.stack, a.toNat ≤ s.cfg.capacity := by
  rcases h.stack with hst | ⟨-, a, hst⟩ | ⟨-, hst, hroom⟩
  · rw [hst]
    exact ⟨hlen, hentries⟩
  · rw [hst] at hlen hentries
    exact ⟨Nat.le_of_succ_le hlen, fun e he => hentries e (List.mem_cons_of_mem a he)⟩
  · rw [hst]
    exact ⟨hroom, List.forall_mem_cons.2 ⟨hpc, hentries⟩⟩

/-- An instruction fetched at `a`, executed on the incremented pc, keeps the invariant and the configuration. -/
theorem exec_keeps_wf {i : Instr} {s t : State} {a : CodeAddr} (hs : s.wf = true) (hr : s.runState ≠ .halted)
    (ha : a.toNat + 2 ≤ s.cfg.capacity) (hpc : s.pc = a + 2) (h : exec i s = .next t) : t.wf = true ∧ t.cfg = s.cfg := by
  rcases exec_next h with ⟨e, -, rfl⟩ | hc
  · exact ⟨State.wf_raised hs e, rfl⟩
  · obtain ⟨hmem, hlen, -, hentries, -⟩ := (State.wf_iff s).1 hs
    have hpcle : s.pc.toNat ≤ s.cfg.capacity := hpc ▸ (toNat_add_le a 2).trans ha
    obtain ⟨hlen', hentries'⟩ := hc.stack_ok hlen hentries hpcle
    have herr : t.err = none := hc.err.trans (State.err_eq_none_of_wf hs hr)
    have hrun : t.runState ≠ .halted := by
      rcases hc.runState with hk | ⟨x, -, hk⟩ <;> simp [hk, hr]
    refine ⟨(State.wf_iff t).2 ?_, hc.cfg⟩
    rw [hc.cfg, hc.pc a hpc]
    exact ⟨hc.wf_mem hmem, hlen', by simp [herr, hrun], hentries', (toNat_pcAfter_le i ha hentries).imp_right .inl⟩

/-- A cycle of a well-formed machine that is not HALTED keeps the invariant and the configuration. -/
theorem cycle_keeps_wf {s t : State} (hs : s.wf = true) (hr : s.runState ≠ .halted) (h : cycle s = .next t) :
    t.wf = true ∧ t.cfg = s.cfg := by
  have hfetched {w : Word} (hf : fetch s = .ok w) : s.pc.toNat + 2 ≤ s.cfg.capacity ∧ (s.setPc (s.pc + 2)).wf = true := by
    rcases fetch_cases s with ⟨hin, -⟩ | ⟨-, herr⟩
    · have hle := ((admitted_iff _ _ _).1 hin).2
      obtain ⟨hmem, hlen, hlatch, hentries, -⟩ := (State.wf_iff s).1 hs
      have hnew : (s.pc + 2).toNat ≤ s.pc.toNat + 2 := toNat_add_le s.pc 2
      exact ⟨hle, (State.wf_iff _).2 ⟨hmem, hlen, hlatch, hentries, .inl (by simp only [State.setPc_pc, State.setPc_cfg]; omega)⟩⟩
    · rw [herr] at hf
      cases hf
  rcases cycle_cases s with ⟨-, hc⟩ | ⟨w, hf, -, hc⟩ | ⟨w, i, hf, -, hc⟩ <;> rw [hc] at h
  · cases h
    exact ⟨State.wf_raised hs _, rfl⟩
  · cases h
    exact ⟨State.wf_raised (hfetched hf).2 _, rfl⟩
  · obtain ⟨hin, hwf⟩ := hfetched hf
    exact exec_keeps_wf (s := s.setPc (s.pc + 2)) hwf hr hin rfl h

/-- Memory after the reset sequence is canonical, for every configuration and ROM: each write is admitted or not made. -/
theorem wf_mem_resetMachine (s : State) : Memory.wf s.cfg.capacity (resetMachine s).mem = true := by
  have hfont (h : admitted s.cfg.capacity s.cfg.fontBase s.cfg.fontData.length = true) :
      Memory.wf s.cfg.capacity (Memory.writeBytes [] s.cfg.fontBase s.cfg.fontData) = true :=
    Memory.wf_writeBytes (m := []) rfl _ ((admitted_iff _ _ _).1 h).2
  rcases resetMachine_cases s with ⟨hin, hrom, hmem, -⟩ | ⟨hin, -, hmem, -⟩ | ⟨-, hmem, -⟩ <;> rw [hmem]
  · exact Memory.wf_writeBytes (hfont hin) _ ((admitted_iff _ _ _).1 hrom).2
  · exact hfont hin
  · rfl

/-- The reset sequence establishes the invariant from any state and keeps the configuration. -/
theorem wf_resetMachine (s : State) : (resetMachine s).wf = true ∧ (resetMachine s).cfg = s.cfg := by
  obtain ⟨-, -, -, -, hpc, hstack, -, hcfg, -, -, -⟩ := resetMachine_fields s
  have hlatch : (resetMachine s).err.isSome = true ↔ (resetMachine s).runState = .halted := by
    rcases resetMachine_cases s with ⟨-, -, -, hr, he⟩ | ⟨-, -, -, hr, he⟩ | ⟨-, -, hr, he⟩ <;> simp [hr, he]
  refine ⟨(State.wf_iff _).2 ?_, hcfg⟩
  rw [hcfg, hstack, hpc]
  exact ⟨wf_mem_resetMachine s, Nat.zero_le _, hlatch, by simp, .inr (.inr (BitVec.toNat_ofNat _ _ ▸ Nat.mod_le _ _))⟩

/-- The invariant speaks of memory, stack, pc and configuration, and of the latch and run state together. -/
theorem State.wf_congr {s t : State} (hs : s.wf = true) (hmem : t.mem = s.mem) (hstack : t.stack = s.stack) (hpc : t.pc = s.pc)
    (hcfg : t.cfg = s.cfg) (hlatch : t.err.isSome = true ↔ t.runState = .halted) : t.wf = true := by
  obtain ⟨h1, h2, -, h4, h5⟩ := (State.wf_iff s).1 hs
  rw [State.wf_iff, hmem, hstack, hpc, hcfg]
  exact ⟨h1, h2, hlatch, h4, h5⟩

/-- Between two run states neither of which is HALTED the invariant does not see a difference. -/
theorem State.wf_of_not_halted {s t : State} (hs : s.wf = true) (hmem : t.mem = s.mem) (hstack : t.stack = s.stack)
    (hpc : t.pc = s.pc) (hcfg : t.cfg = s.cfg) (herr : t.err = s.err) (hr : s.runState ≠ .halted) (hr' : t.runState ≠ .halted) :
    t.wf = true :=
  State.wf_congr hs hmem hstack hpc hcfg (by simp [herr, State.err_eq_none_of_wf hs hr, hr'])

/-- An event of the host keeps the invariant and the configuration. -/
theorem hostEffect_keeps_wf (e : HostEvent) {s : State} (hs : s.wf = true) :
    (hostEffect e s).wf = true ∧ (hostEffect e s).cfg = s.cfg := by
  obtain ⟨-, -, hlatch, -, -⟩ := (State.wf_iff s).1 hs
  cases e with
  | idle => exact ⟨hs, rfl⟩
  | reset => exact wf_resetMachine s
  | supplyRom image => exact ⟨State.wf_congr hs rfl rfl rfl rfl hlatch, rfl⟩
  | start =>
    simp only [hostEffect, startMachine]
    cases s.runState with
    | stopped => exact wf_resetMachine s
    | running | keyWait | halted => exact ⟨hs, rfl⟩
  | stop =>
    simp only [hostEffect, stopMachine]
    cases hr : s.runState with
    | running | keyWait => exact ⟨State.wf_of_not_halted hs rfl rfl rfl rfl rfl (by simp [hr]) (by simp), rfl⟩
    | stopped | halted => exact ⟨hs, rfl⟩
  | tick =>
    simp only [hostEffect, tickMachine]
    cases s.cfg.timerTick with
    | absent => exact ⟨hs, rfl⟩
    | present => exact ⟨State.wf_congr hs rfl rfl rfl rfl hlatch, rfl⟩

/-- A moment of the hold keeps the invariant and the configuration. -/
theorem heldMove_keeps_wf (x : Reg) {s : State} (hs : s.wf = true) (hr : s.runState ≠ .halted) :
    (heldMove x s).wf = true ∧ (heldMove x s).cfg = s.cfg := by
  rcases heldMove_cases x s with ⟨-, hmove⟩ | ⟨k, -, -, hmove⟩ <;> rw [hmove]
  · exact ⟨State.wf_of_not_halted hs rfl rfl rfl rfl rfl hr hr, rfl⟩
  · exact ⟨State.wf_of_not_halted hs rfl rfl rfl rfl rfl hr (by simp), rfl⟩

end Machine

open Machine

/-- Settles O26, by the four kinds of step: an event of the host, a cycle, a moment of the hold, an idle slot. -/
theorem stepKeepsInvariant : Obligations.StepKeepsInvariant := by
  intro s t hs h
  have hwaiting (rest : List HostEvent) : ({ s with inputs := rest } : State).wf = true := hs
  cases step_to h with
  | host e rest => exact hostEffect_keeps_wf e (hwaiting rest)
  | cycle rest _ _ hr ht => exact cycle_keeps_wf (s := { s with inputs := rest }) (hwaiting rest) (by simp [hr]) ht
  | held rest x _ hr => exact heldMove_keeps_wf x (hwaiting rest) (by simp [hr])
  | idle rest => exact ⟨hwaiting rest, rfl⟩

end Sys2Proof
end

section
/-! The reset sequence (10_state.md R41, R42): what it writes into memory, and that it depends on configuration and ROM only. -/

namespace Sys2Proof

namespace Machine

/-- Every register after the reset sequence is zero. -/
theorem getV_resetMachine (s : State) (r : Reg) : (resetMachine s).getV r = 0 := by
  obtain ⟨hv, -⟩ := resetMachine_fields s
  simp [State.getV, hv]

/-- The reset sequence on two states with the same configuration and ROM differs in the model's own fields only. -/
theorem resetMachine_congr {s u : State} (hcfg : u.cfg = s.cfg) (hrom : u.rom = s.rom) :
    resetMachine u = { resetMachine s with inputs := u.inputs, calls := u.calls, fresh := u.fresh } := by
  simp only [resetMachine, hcfg, hrom]
  split
  · split <;> rfl
  · rfl

/-- A second reset sequence changes nothing but the host's slots, where they were used up in between. -/
theorem resetMachine_idempotent (s : State) (inputs : List HostEvent) :
    resetMachine { resetMachine s with inputs := inputs } = { resetMachine s with inputs := inputs } := by
  obtain ⟨-, -, -, -, -, -, hrom, hcfg, -, -, -⟩ := resetMachine_fields s
  exact resetMachine_congr hcfg hrom

/-- Under the constraints, and with a ROM that fits, the reset sequence writes font and ROM into cleared memory and runs. -/
theorem resetMachine_of_fits {s : State} (hcfg : Config.wf s.cfg = true)
    (hrom : s.cfg.origin + s.rom.length ≤ s.cfg.capacity) :
    (resetMachine s).mem = Memory.writeBytes (Memory.writeBytes [] s.cfg.fontBase s.cfg.fontData) s.cfg.origin s.rom ∧
      (resetMachine s).runState = .running ∧ (resetMachine s).err = none := by
  obtain ⟨hbase, -, horigin, -⟩ := (Config.wf_iff _).1 hcfg
  have hfont : admitted s.cfg.capacity s.cfg.fontBase s.cfg.fontData.length = true :=
    (admitted_iff _ _ _).2 ⟨by omega, Config.font_le_capacity hcfg⟩
  have himage : admitted s.cfg.capacity s.cfg.origin s.rom.length = true := (admitted_iff _ _ _).2 ⟨by omega, hrom⟩
  rcases resetMachine_cases s with ⟨-, -, h⟩ | ⟨-, hno, -⟩ | ⟨hno, -⟩
  · exact h
  · simp [himage] at hno
  · simp [hfont] at hno

/-- What the memory with font and ROM reads (20_memory.md R71, R79): the font ends at or below ORIGIN, so the ROM leaves it whole. -/
theorem read_font_and_rom {c : Config} {rom : List Byte} (hc : Config.wf c = true) (hrom : c.origin + rom.length ≤ c.capacity) :
    let mem := Memory.writeBytes (Memory.writeBytes [] c.fontBase c.fontData) c.origin rom
    (∀ k (h : k < c.fontData.length), Memory.read mem (c.fontBase + k) = c.fontData[k]) ∧
      (∀ k (h : k < rom.length), Memory.read mem (c.origin + k) = rom[k]) ∧
      ∀ a, (a < c.fontBase ∨ c.fontBase + 16 * c.glyphBytes ≤ a) → (a < c.origin ∨ c.origin + rom.length ≤ a) →
        Memory.read mem a = 0 := by
  obtain ⟨hbase, hlen, -, -⟩ := (Config.wf_iff _).1 hc
  refine ⟨fun k hk => ?font, fun k hk => ?rom, fun a hfont himage => ?elsewhere⟩
  case font =>
    rw [Memory.read_writeBytes_outside _ _ (by omega)]
    exact Memory.read_writeBytes_inside (m := []) rfl _ (Config.font_le_capacity hc) hk
  case rom => exact Memory.read_writeBytes_inside (Memory.wf_font hc) _ hrom hk
  case elsewhere =>
    rw [Memory.read_writeBytes_outside _ _ himage, Memory.read_writeBytes_outside _ _ (hlen ▸ hfont)]
    rfl

/-- A reset event is taken in every run state. -/
theorem step_reset {s : State} {rest : List HostEvent} (h : s.inputs = .reset :: rest) :
    step s = .next (resetMachine { s with inputs := rest }) :=
  step_hostEvent h (by decide)

end Machine

open Machine

/-- Settles O19: the step is the reset sequence, and its memory is read by `read_font_and_rom`. -/
theorem resetState : Obligations.ResetState := by
  intro s rest hin hcfg hrom
  obtain ⟨-, hindex, hdt, hst, hpc, hstack, hkeptRom, hkeptCfg, -⟩ := resetMachine_fields { s with inputs := rest }
  obtain ⟨hmem, hrun, herr⟩ := resetMachine_of_fits (s := { s with inputs := rest }) hcfg hrom
  obtain ⟨-, -, horigin, hcap⟩ := (Config.wf_iff _).1 hcfg
  refine ⟨_, step_reset hin, getV_resetMachine _, hindex, hdt, hst, ?_, hstack, hrun, herr, hkeptRom, hkeptCfg, ?_⟩
  · rw [hpc, BitVec.toNat_ofNat, two_pow_pcwidth]
    exact Nat.mod_eq_of_lt (by simp only; omega)
  · rw [hmem]
    exact read_font_and_rom hcfg hrom

/-- Settles O20: what reset leaves depends on configuration and ROM, which it keeps (`resetMachine_congr`). -/
theorem resetIsIdempotentAtAnyTime : Obligations.ResetIsIdempotentAtAnyTime := by
  constructor
  · intro s rest hin
    obtain ⟨-, hindex, hdt, hst, hpc, hstack, -⟩ := resetMachine_fields { s with inputs := rest }
    refine ⟨_, step_reset hin, getV_resetMachine _, hindex, hdt, hst, hpc, hstack, ?_⟩
    intro u rest' hin' hcfg hrom
    have hsame := resetMachine_congr (s := { s with inputs := rest }) (u := { u with inputs := rest' }) hcfg hrom
    exact ⟨_, step_reset hin', by rw [hsame]⟩
  · intro s rest hin
    obtain ⟨-, -, -, -, -, -, -, -, hinputs, -⟩ := resetMachine_fields { s with inputs := .reset :: rest }
    exact ⟨_, _, step_reset hin, step_reset hinputs, resetMachine_idempotent _ rest⟩

end Sys2Proof
end

section
/-! What one instruction changes of the special registers and of pc: read off `Completed` (10_state.md R24 to R37). -/

namespace Sys2Proof

open Machine

/-- Settles O57: an error touches the latch and the run state only, and a completed instruction the fields of its own line. -/
theorem specialStateHasItsOwnWriters : Obligations.SpecialStateHasItsOwnWriters := by
  intro i s t h
  rcases exec_next h with ⟨e, -, rfl⟩ | hc
  · simp
  · refine ⟨hc.index, hc.dt.imp_right ?dt, hc.st.imp_right ?st, hc.stack.imp_right ?stack, ?run, hc.rom, hc.cfg, hc.inputs⟩
    case dt => exact fun ⟨x, hi, _⟩ => ⟨x, hi⟩
    case st => exact fun ⟨x, hi, _⟩ => ⟨x, hi⟩
    case stack => exact Or.imp And.left And.left
    case run =>
      rcases hc.runState with hr | ⟨x, hi, hr⟩
      · exact .inl ⟨hr, hc.err⟩
      · exact .inr (.inr ⟨x, hi, hr, hc.err⟩)

/-- Settles O58: an instruction that leaves the latch empty did not raise, so it completed. -/
theorem pcAfterOneCycle : Obligations.PcAfterOneCycle := by
  intro i s t a hpc _ h herr
  rcases exec_next h with ⟨e, -, rfl⟩ | hc
  · cases herr
  · exact hc.pc a hpc

namespace Machine

/-- A cycle changes DT and ST only by a fetched FX15 and FX18. -/
theorem cycle_timers {s t : State} (h : cycle s = .next t) :
    (t.dt = s.dt ∨ ∃ w x, fetch s = .ok w ∧ dispatch w = some (.ldDtVx x) ∧ t.dt = s.getV x) ∧
      (t.st = s.st ∨ ∃ w x, fetch s = .ok w ∧ dispatch w = some (.ldStVx x) ∧ t.st = s.getV x) := by
  rcases cycle_cases s with ⟨-, hc⟩ | ⟨w, -, -, hc⟩ | ⟨w, i, hf, hd, hc⟩ <;> rw [hc] at h
  · cases h
    exact ⟨.inl rfl, .inl rfl⟩
  · cases h
    exact ⟨.inl rfl, .inl rfl⟩
  · rcases exec_next h with ⟨e, -, rfl⟩ | hdone
    · exact ⟨.inl rfl, .inl rfl⟩
    · refine ⟨hdone.dt.imp_right ?dt, hdone.st.imp_right ?st⟩
      case dt => exact fun ⟨x, hi, hdt⟩ => ⟨w, x, hf, hi ▸ hd, hdt⟩
      case st => exact fun ⟨x, hi, hst⟩ => ⟨w, x, hf, hi ▸ hd, hst⟩

/-- Without a tick agent only the events of the reset sequence touch the timers. -/
theorem hostEffect_timers {e : HostEvent} {s : State} (habsent : s.cfg.timerTick = .absent) (hreset : e ≠ .reset)
    (hstart : e ≠ .start) : (hostEffect e s).dt = s.dt ∧ (hostEffect e s).st = s.st := by
  cases e with
  | idle => exact ⟨rfl, rfl⟩
  | start => exact absurd rfl hstart
  | reset => exact absurd rfl hreset
  | stop =>
    simp only [hostEffect, stopMachine]
    split <;> exact ⟨rfl, rfl⟩
  | tick => simp [hostEffect, tickMachine, habsent]
  | supplyRom image => exact ⟨rfl, rfl⟩

/-- A moment of the hold keeps the timers. -/
theorem heldMove_timers (x : Reg) (s : State) : (heldMove x s).dt = s.dt ∧ (heldMove x s).st = s.st := by
  rcases heldMove_cases x s with ⟨-, hmove⟩ | ⟨k, -, -, hmove⟩ <;> rw [hmove] <;> exact ⟨rfl, rfl⟩

end Machine

/-- Settles O25, by the four kinds of step; using up the host's slot changes neither what is fetched nor a register. -/
theorem timersChangeOnlyByTheirWriters : Obligations.TimersChangeOnlyByTheirWriters := by
  intro s t habsent h
  cases step_to h with
  | host e rest hin =>
    by_cases hreset : e = .reset
    · exact .inl ⟨rest, .inl (hreset ▸ hin)⟩
    by_cases hstart : e = .start
    · exact .inl ⟨rest, .inr (hstart ▸ hin)⟩
    obtain ⟨hdt, hst⟩ := hostEffect_timers (s := { s with inputs := rest }) habsent hreset hstart
    exact .inr ⟨.inl hdt, .inl hst⟩
  | cycle rest _ _ _ ht => exact .inr (cycle_timers (s := { s with inputs := rest }) ht)
  | held rest x =>
    obtain ⟨hdt, hst⟩ := heldMove_timers x { s with inputs := rest }
    exact .inr ⟨.inl hdt, .inl hst⟩
  | idle rest => exact .inr ⟨.inl rfl, .inl rfl⟩

end Sys2Proof
end

section
/-! What an unread register can influence (10_state.md R21). `exec` is run on `s` and on `s.setV r b` side by side: every operation
keeps the two states the same but for `r`, and the operands of an instruction that does not read `r` are the same in both. -/

namespace Sys2Proof

namespace Machine

/-- `t'` is `t` but for the register `r`: it holds the same in both, or in `t` still what it held in `s` and in `t'` still `b`. -/
structure SameBut (s : State) (r : Reg) (b : Byte) (t t' : State) : Prop where
  frame : t' = { t with v := t'.v }
  others : ∀ q, q ≠ r → t'.getV q = t.getV q
  own : t'.getV r = t.getV r ∨ (t'.getV r = b ∧ t.getV r = s.getV r)

namespace SameBut

variable {s : State} {r : Reg} {b : Byte} {t t' : State}

/-- Before anything is executed only `r` differs. -/
theorem start (s : State) (r : Reg) (b : Byte) : SameBut s r b s (s.setV r b) :=
  ⟨rfl, fun _ hq => State.getV_setV_other s b hq, .inr ⟨State.getV_setV_same s r b, rfl⟩⟩

/-- An update that neither reads nor writes the registers keeps the two states the same but for `r`. -/
theorem map (h : SameBut s r b t t') (f : State → State) (hf : ∀ u w, f { u with v := w } = { f u with v := w }) :
    SameBut s r b (f t) (f t') := by
  have hv (u : State) : (f u).v = u.v := (congrArg State.v (hf u u.v) :)
  have hget (u : State) (q : Reg) : (f u).getV q = u.getV q := State.getV_congr (hv u) q
  obtain ⟨hframe, hothers, hown⟩ := h
  refine ⟨?_, fun q hq => by simpa only [hget] using hothers q hq, by simpa only [hget] using hown⟩
  calc f t' = f { t with v := t'.v } := congrArg f hframe
    _ = { f t with v := t'.v } := hf t t'.v
    _ = { f t with v := (f t').v } := by rw [hv t']

/-- Registers overwritten with the same values in both states: what is written is the same, what is not is as before. -/
theorem mapRegs (h : SameBut s r b t t') {w w' : Vector Byte nregs}
    (hw : ∀ q : Reg, w'[q.toNat]'(reg_lt q) = w[q.toNat]'(reg_lt q) ∨
      (w'[q.toNat]'(reg_lt q) = t'.getV q ∧ w[q.toNat]'(reg_lt q) = t.getV q)) :
    SameBut s r b { t with v := w } { t' with v := w' } := by
  obtain ⟨hframe, hothers, hown⟩ := h
  refine ⟨by rw [hframe], fun q hq => ?_, ?_⟩
  · rcases hw q with hsame | ⟨hkept', hkept⟩
    · exact hsame
    · exact hkept'.trans ((hothers q hq).trans hkept.symm)
  · rcases hw r with hsame | ⟨hkept', hkept⟩
    · exact .inl hsame
    · exact hown.imp (fun ho => hkept'.trans (ho.trans hkept.symm)) fun ⟨hb, hs⟩ => ⟨hkept'.trans hb, hkept.trans hs⟩

/-- One register written with the same value in both states. -/
theorem setV (h : SameBut s r b t t') (x : Reg) (c : Byte) : SameBut s r b (t.setV x c) (t'.setV x c) := by
  refine h.mapRegs fun q => ?_
  change (t'.setV x c).getV q = (t.setV x c).getV q ∨ ((t'.setV x c).getV q = t'.getV q ∧ (t.setV x c).getV q = t.getV q)
  simp only [State.getV_setV]
  split
  · exact .inl rfl
  · exact .inr ⟨rfl, rfl⟩

/-- An alu result and its flag, from the same operands. -/
theorem writeAlu (h : SameBut s r b t t') (x : Reg) (fn : AluFn) (c d : Byte) :
    SameBut s r b (t.writeAlu x fn c d) (t'.writeAlu x fn c d) := by
  unfold State.writeAlu
  split
  · exact h.setV x _
  · exact (h.setV x _).setV vf _

/-- A block of registers loaded with the same bytes in both states. -/
theorem loadRegs (h : SameBut s r b t t') (bytes : List Byte) :
    SameBut s r b { t with v := loadBlock t.v 0 bytes } { t' with v := loadBlock t'.v 0 bytes } := by
  refine h.mapRegs fun q => ?_
  rw [getElem_loadBlock _ _ _ _ q.isLt, getElem_loadBlock _ _ _ _ q.isLt]
  split
  · exact .inl rfl
  · exact .inr ⟨rfl, rfl⟩

theorem call (h : SameBut s r b t t') (c : Call) : SameBut s r b (t.call c) (t'.call c) :=
  h.map (·.call c) fun _ _ => rfl

theorem ask (h : SameBut s r b t t') (c : Call) : SameBut s r b (t.ask c) (t'.ask c) :=
  h.map (·.ask c) fun _ _ => rfl

theorem setPc (h : SameBut s r b t t') (a : CodeAddr) : SameBut s r b (t.setPc a) (t'.setPc a) :=
  h.map (·.setPc a) fun _ _ => rfl

theorem setIndex (h : SameBut s r b t t') (a : Index) : SameBut s r b (t.setIndex a) (t'.setIndex a) :=
  h.map (·.setIndex a) fun _ _ => rfl

theorem skipIf (h : SameBut s r b t t') (c : Bool) : SameBut s r b (t.skipIf c) (t'.skipIf c) :=
  h.map (·.skipIf c) fun _ _ => by cases c <;> rfl

end SameBut

/-- Where the one answer is a next state so is the other, the same but for `r`. -/
def AnswersBut (s : State) (r : Reg) (b : Byte) (o o' : Answer) : Prop :=
  ∀ t, o = .next t → ∃ t', o' = .next t' ∧ SameBut s r b t t'

namespace AnswersBut

variable {s : State} {r : Reg} {b : Byte}

theorem next {t t' : State} (h : SameBut s r b t t') : AnswersBut s r b (.next t) (.next t') := by
  rintro _ ⟨⟩
  exact ⟨t', rfl, h⟩

theorem refused (c : Refusal) (o' : Answer) : AnswersBut s r b (.refused c) o' := by
  rintro _ ⟨⟩

/-- The same error raised by both. -/
theorem raised (s : State) (r : Reg) (b : Byte) (e : Error) : AnswersBut s r b (raise e s) (raise e (s.setV r b)) :=
  next ((SameBut.start s r b).map (fun u => { u with err := some e, runState := .halted }) fun _ _ => rfl)

end AnswersBut

/-! The shared operations on `s.setV r b`: the registers are no part of memory, stack or configuration. -/

theorem State.memRead_setV (s : State) (r : Reg) (b : Byte) (addr : Word) (n : Nat) :
    (s.setV r b).memRead addr n = s.memRead addr n := rfl

theorem State.memWrite_setV (s : State) (r : Reg) (b : Byte) (addr : Word) (bytes : List Byte) :
    (s.setV r b).memWrite addr bytes = (s.memWrite addr bytes).map (·.setV r b) := by
  unfold State.memWrite
  rw [apply_ite (Except.map _)]
  rfl

theorem State.push_setV (s : State) (r : Reg) (b : Byte) (a : CodeAddr) :
    (s.setV r b).push a = (s.push a).map (·.setV r b) := by
  unfold State.push
  rw [apply_ite (Except.map _)]
  rfl

theorem State.pop_setV (s : State) (r : Reg) (b : Byte) :
    (s.setV r b).pop = s.pop.map fun p => (p.1, p.2.setV r b) := by
  unfold State.pop
  rw [State.setV_stack]
  split <;> rfl

/-- The registers V0..VX are the same where only a register above X differs. -/
theorem State.regBlock_setV (s : State) {r x : Reg} (b : Byte) (h : x < r) : (s.setV r b).regBlock x = s.regBlock x := by
  have hle : x.toNat + 1 ≤ r.toNat := h
  simp [State.regBlock, Vector.toList_set, List.take_set_of_le hle]

/-- The shifted operand is the same where only a register that the shift does not read differs. -/
theorem State.shiftOperand_setV (s : State) {r x y : Reg} (b : Byte) (h : regsRead s.cfg (.shr x y) r = false) :
    (s.setV r b).shiftOperand x y = s.shiftOperand x y := by
  unfold State.shiftOperand
  rw [State.setV_cfg]
  cases hsrc : s.cfg.shiftSrc with
  | x =>
    simp only [regsRead, hsrc, beq_eq_false_iff_ne] at h
    exact State.getV_setV_other s b h.symm
  | y =>
    simp only [regsRead, hsrc, beq_eq_false_iff_ne] at h
    exact State.getV_setV_other s b h.symm

/-- The key skips ask about VX only. -/
theorem skipOnKey_answersBut (s : State) {r x : Reg} (b : Byte) (wanted : Bool) (h : r ≠ x) :
    AnswersBut s r b (skipOnKey x wanted s) (skipOnKey x wanted (s.setV r b)) := by
  have hx : (s.setV r b).getV x = s.getV x := State.getV_setV_other s b h.symm
  simp only [skipOnKey, hx, State.setV_cfg]
  split
  · exact .next (((SameBut.start s r b).ask _).skipIf _)
  · exact .refused _ _

/-- A register that an instruction does not read has no influence on what it answers but on itself. -/
theorem exec_answersBut (i : Instr) (s : State) (r : Reg) (b : Byte) (hr : regsRead s.cfg i r = false) :
    AnswersBut s r b (exec i s) (exec i (s.setV r b)) := by
  have hstart := SameBut.start s r b
  have hget {x : Reg} (h : r ≠ x) : (s.setV r b).getV x = s.getV x := State.getV_setV_other s b h.symm
  cases i with
  | cls => exact .next (hstart.call _)
  | ret =>
    simp only [exec, execRet, State.pop_setV]
    rcases s.pop_cases with ⟨a, rest, -, e⟩ | ⟨-, e⟩ <;> simp only [e, Except.map]
    · exact .next ((hstart.map (fun u => { u with stack := rest }) fun _ _ => rfl).setPc a)
    · exact .raised s r b _
  | jp nnn => exact .next (hstart.setPc _)
  | call nnn =>
    simp only [exec, execCall, State.setV_pc, State.push_setV]
    rcases s.push_cases s.pc with ⟨-, e⟩ | ⟨-, e⟩ <;> simp only [e, Except.map]
    · exact .next ((hstart.map (fun u => { u with stack := s.pc :: s.stack }) fun _ _ => rfl).setPc _)
    · exact .raised s r b _
  | jpV0 nnn =>
    have hne : r ≠ 0 := by simpa [regsRead] using hr
    simp only [exec, execJpV0, hget hne]
    exact .next (hstart.setPc _)
  | seImm x nn | sneImm x nn =>
    have hne : r ≠ x := by simpa [regsRead] using hr
    simp only [exec, execSeImm, execSneImm, hget hne]
    exact .next (hstart.skipIf _)
  | seReg x y | sneReg x y =>
    obtain ⟨hx, hy⟩ : r ≠ x ∧ r ≠ y := by simpa [regsRead] using hr
    simp only [exec, execSeReg, execSneReg, hget hx, hget hy]
    exact .next (hstart.skipIf _)
  | skp x | sknp x => exact skipOnKey_answersBut s b _ (by simpa [regsRead] using hr)
  | ldImm x nn => exact .next (hstart.setV x nn)
  | addImm x nn =>
    have hne : r ≠ x := by simpa [regsRead] using hr
    simp only [exec, execAddImm, hget hne]
    exact .next (hstart.setV x _)
  | rnd x nn => exact .next ((hstart.ask _).setV x _)
  | ldReg x y =>
    have hne : r ≠ y := by simpa [regsRead] using hr
    simp only [exec, execLdReg, hget hne]
    exact .next (hstart.writeAlu x .passB (s.getV x) _)
  | orReg x y | andReg x y | xorReg x y | addReg x y | sub x y | subn x y =>
    obtain ⟨hx, hy⟩ : r ≠ x ∧ r ≠ y := by simpa [regsRead] using hr
    simp only [exec, execOr, execAnd, execXor, execAddReg, execSub, execSubn, hget hx, hget hy]
    exact .next (hstart.writeAlu x _ _ _)
  | shr x y =>
    simp only [exec, execShr, State.shiftOperand_setV s b hr]
    exact .next (hstart.writeAlu x .shr _ (s.getV y))
  | shl x y =>
    simp only [exec, execShl, State.shiftOperand_setV s b hr]
    exact .next (hstart.writeAlu x .shl _ (s.getV y))
  | ldI nnn => exact .next (hstart.setIndex _)
  | addI x =>
    have hne : r ≠ x := by simpa [regsRead] using hr
    simp only [exec, execAddI, hget hne]
    exact .next (hstart.setIndex _)
  | ldFont x =>
    have hne : r ≠ x := by simpa [regsRead] using hr
    simp only [exec, execLdFont, hget hne]
    split
    · exact .next (hstart.setIndex _)
    · exact .refused _ _
  | drw x y n =>
    obtain ⟨hx, hy⟩ : r ≠ x ∧ r ≠ y := by simpa [regsRead] using hr
    simp only [exec, execDrw, State.setV_index, State.memRead_setV, hget hx, hget hy]
    cases s.memRead s.index n.toNat with
    | ok bytes => exact .next ((hstart.ask _).setV vf _)
    | error e => exact .raised s r b e
  | ldVxDt x => exact .next (hstart.setV x _)
  | ldVxKey x => exact .next ((hstart.call _).map (fun u => { u with runState := .keyWait x }) fun _ _ => rfl)
  | ldDtVx x =>
    have hne : r ≠ x := by simpa [regsRead] using hr
    simp only [exec, execLdDtVx, hget hne]
    exact .next (hstart.map (fun u => { u with dt := s.getV x }) fun _ _ => rfl)
  | ldStVx x =>
    have hne : r ≠ x := by simpa [regsRead] using hr
    simp only [exec, execLdStVx, hget hne]
    exact .next (hstart.map (fun u => { u with st := s.getV x }) fun _ _ => rfl)
  | ldBcd x =>
    have hne : r ≠ x := by simpa [regsRead] using hr
    simp only [exec, execLdBcd, State.setV_index, State.memWrite_setV, hget hne]
    rcases s.memWrite_cases s.index (bcdDigits (s.getV x)) with ⟨-, e⟩ | ⟨-, e⟩ <;> simp only [e, Except.map]
    · exact .next (hstart.map (fun u => { u with mem := _ }) fun _ _ => rfl)
    · exact .raised s r b _
  | stRegs x =>
    have hlt : x < r := by simpa [regsRead] using hr
    simp only [exec, execStRegs, State.setV_index, State.memWrite_setV, State.regBlock_setV s b hlt]
    rcases s.memWrite_cases s.index (s.regBlock x) with ⟨-, e⟩ | ⟨-, e⟩ <;> simp only [e, Except.map]
    · exact .next (hstart.map (fun u => { u with mem := _ }) fun _ _ => rfl)
    · exact .raised s r b _
  | ldRegs x =>
    simp only [exec, execLdRegs, State.setV_index, State.memRead_setV]
    cases s.memRead s.index (x.toNat + 1) with
    | ok bytes => exact .next (hstart.loadRegs bytes)
    | error e => exact .raised s r b e

end Machine

open Machine

/-- Settles O55: what is written is read off `exec_next`, what is read is `exec_answersBut`. -/
theorem registersReadAndWritten : Obligations.RegistersReadAndWritten := by
  intro i s t h
  constructor
  · intro r hr
    rcases exec_next h with ⟨e, -, rfl⟩ | hc
    · rfl
    · exact hc.regs r hr
  · intro r b hr
    obtain ⟨t', hnext, hframe, hothers, hown⟩ := exec_answersBut i s r b hr t h
    exact ⟨t', hnext, hframe, hothers, hown⟩

end Sys2Proof
end

section
/-! Checked memory (20_memory.md R61 to R69): the two outcomes of an access, and what instructions store and leave alone. -/

namespace Sys2Proof

namespace Machine

/-- The bounds check of 20_memory.md R61, failed: an empty window that starts outside fails too (92 D21). -/
theorem admitted_eq_false_iff (cap addr len : Nat) : admitted cap addr len = false ↔ cap ≤ addr ∨ cap < addr + len := by
  refine ⟨not_admitted, fun h => ?_⟩
  rw [Bool.eq_false_iff, ne_eq, admitted_iff]
  omega

/-- An admitted read. -/
theorem State.memRead_of_admitted {s : State} {addr : Word} {n : Nat} (h : admitted s.cfg.capacity addr.toNat n = true) :
    s.memRead addr n = .ok (Memory.readBytes s.mem addr.toNat n) := if_pos h

/-- A refused read: the payload is the start of the window. -/
theorem State.memRead_of_not_admitted {s : State} {addr : Word} {n : Nat}
    (h : admitted s.cfg.capacity addr.toNat n = false) : s.memRead addr n = .error (.invalidAddress addr) := by
  rcases s.memRead_cases addr n with ⟨hin, -⟩ | ⟨-, herr⟩
  · simp [h] at hin
  · exact herr

/-- An admitted write. -/
theorem State.memWrite_of_admitted {s : State} {addr : Word} {bytes : List Byte}
    (h : admitted s.cfg.capacity addr.toNat bytes.length = true) :
    s.memWrite addr bytes = .ok { s with mem := Memory.writeBytes s.mem addr.toNat bytes } := if_pos h

/-- A refused write: the payload is the start of the window. -/
theorem State.memWrite_of_not_admitted {s : State} {addr : Word} {bytes : List Byte}
    (h : admitted s.cfg.capacity addr.toNat bytes.length = false) :
    s.memWrite addr bytes = .error (.invalidAddress addr) := by
  rcases s.memWrite_cases addr bytes with ⟨hin, -⟩ | ⟨-, herr⟩
  · simp [h] at hin
  · exact herr

/-- The four instructions that access memory (20_memory.md R68) raise InvalidAddress(I) where the window is not admitted. -/
theorem exec_of_not_admitted {i : Instr} {n : Nat} {s : State} (hi : accessLen i = some n)
    (h : admitted s.cfg.capacity s.index.toNat n = false) : exec i s = raise (.invalidAddress s.index) s := by
  cases i with
  | drw | ldRegs =>
    cases hi
    simp only [exec, execDrw, execLdRegs, State.memRead_of_not_admitted h]
  | ldBcd x =>
    cases hi
    simp only [exec, execLdBcd, State.memWrite_of_not_admitted (bytes := bcdDigits (s.getV x)) h]
  | stRegs x =>
    cases hi
    rw [← s.length_regBlock x] at h
    simp only [exec, execStRegs, State.memWrite_of_not_admitted h]
  | _ => cases hi

/-- FX55 with its window in memory (44_index_memory.md R185) stores the register block and changes nothing else. -/
theorem exec_stRegs_of_le {s : State} {x : Reg} (h : s.index.toNat + x.toNat + 1 ≤ s.cfg.capacity) :
    exec (.stRegs x) s = .next { s with mem := Memory.writeBytes s.mem s.index.toNat (s.regBlock x) } := by
  have hin : admitted s.cfg.capacity s.index.toNat (s.regBlock x).length = true := by
    rw [s.length_regBlock, admitted_iff]
    omega
  simp only [exec, execStRegs, State.memWrite_of_admitted hin]

/-- The register block written at `k` puts V[r] at `k + r`. -/
theorem Memory.read_writeBytes_regBlock {cap k : Nat} {m : Memory} {s : State} {x r : Reg} (hm : Memory.wf cap m = true)
    (hk : k + x.toNat + 1 ≤ cap) (hr : r ≤ x) :
    Memory.read (Memory.writeBytes m k (s.regBlock x)) (k + r.toNat) = s.getV r := by
  have hlen := s.length_regBlock x
  have hlt : r.toNat < (s.regBlock x).length := hlen ▸ Nat.lt_succ_of_le hr
  rw [Memory.read_writeBytes_inside hm _ (by omega) hlt, s.getElem_regBlock x _ hlt r.isLt]
  rfl

/-- A fetch with both bytes in memory (20_memory.md R66). -/
theorem fetch_of_le {s : State} (h : s.pc.toNat + 2 ≤ s.cfg.capacity) :
    fetch s = .ok (wordOfBytes (Memory.read s.mem s.pc.toNat) (Memory.read s.mem (s.pc.toNat + 1))) := by
  rcases fetch_cases s with ⟨-, hf⟩ | ⟨hout, -⟩
  · exact hf
  · rw [admitted_eq_false_iff] at hout
    omega

end Machine

open Machine

/-- Settles O50: the four clauses are the two outcomes of a read and of a write. -/
theorem checkedMemoryAccess : Obligations.CheckedMemoryAccess := by
  intro s addr
  refine ⟨fun n => ⟨fun hin => ?read, fun hout => ?readRefused⟩, fun v => ⟨fun hin => ?write, fun hout => ?writeRefused⟩⟩
  case read =>
    exact ⟨_, State.memRead_of_admitted ((admitted_iff _ _ _).2 hin), Memory.length_readBytes _ _ _,
      Memory.getElem_readBytes _ _ _⟩
  case readRefused =>
    rw [← admitted_iff, Bool.not_eq_true] at hout
    exact ⟨addr, State.memRead_of_not_admitted hout, fun _ => rfl⟩
  case write =>
    refine ⟨_, State.memWrite_of_admitted ((admitted_iff _ _ _).2 hin), rfl, fun hm => ⟨?_, fun k hk => ?_⟩, fun a ha => ?_⟩
    · exact Memory.wf_writeBytes hm v hin.2
    · exact Memory.read_writeBytes_inside hm v hin.2 hk
    · exact Memory.read_writeBytes_outside s.mem v ha
  case writeRefused =>
    rw [← admitted_iff, Bool.not_eq_true] at hout
    exact ⟨addr, State.memWrite_of_not_admitted hout, fun _ => rfl⟩

/-- Settles O14: the payload is I in every case. -/
theorem refusedAccessTransfersNothing : Obligations.RefusedAccessTransfersNothing := by
  intro i n s hi hout
  exact ⟨s.index, exec_of_not_admitted hi ((admitted_eq_false_iff _ _ _).2 hout), fun _ => rfl⟩

/-- Settles O49: both addresses of the fetch lie in the window FX55 has stored, as high and low byte. -/
theorem storedInstructionIsFetched : Obligations.StoredInstructionIsFetched := by
  intro s x r r' hcfg hm hle hr' hsucc
  obtain ⟨-, -, -, hcap⟩ := (Config.wf_iff _).1 hcfg
  have hr'le : r'.toNat ≤ x.toNat := hr'
  have hr : r ≤ x := show r.toNat ≤ x.toNat by omega
  have hpc : (BitVec.ofNat 16 (s.index.toNat + r.toNat)).toNat = s.index.toNat + r.toNat := by
    rw [BitVec.toNat_ofNat]
    exact Nat.mod_eq_of_lt (by omega)
  have hhi := Memory.read_writeBytes_regBlock (s := s) hm hle hr
  have hlo := Memory.read_writeBytes_regBlock (s := s) hm hle hr'
  refine ⟨_, exec_stRegs_of_le hle, ?_⟩
  rw [fetch_of_le (by simp only [hpc]; omega)]
  simp only [hpc, Nat.add_assoc, ← hsucc, hhi, hlo]
  rfl

/-- Settles O56: an error keeps memory, and a completed instruction has written `storeLen` bytes from I on, or none. -/
theorem memoryChangesOnlyWhereStored : Obligations.MemoryChangesOnlyWhereStored := by
  intro i s t h a ha
  rcases exec_next h with ⟨e, -, rfl⟩ | hc
  · rfl
  · rcases hc.mem with hmem | ⟨bytes, hlen, -, hmem⟩
    · rw [hmem]
    · rw [hmem]
      exact Memory.read_writeBytes_outside s.mem bytes (hlen ▸ ha)

end Sys2Proof
end

section
/-! Font and ROM (20_memory.md R71, R72): a ROM that does not fit at reset, and where FX29 finds a glyph. -/

namespace Sys2Proof

namespace Machine

/-- Under the constraints, a ROM that does not fit halts the reset sequence with the font alone in memory (92 D16). -/
theorem resetMachine_of_oversized {s : State} (hcfg : Config.wf s.cfg = true)
    (hrom : s.cfg.capacity < s.cfg.origin + s.rom.length) :
    (resetMachine s).mem = Memory.writeBytes [] s.cfg.fontBase s.cfg.fontData ∧ (resetMachine s).runState = .halted ∧
      (resetMachine s).err = some (.invalidAddress (BitVec.ofNat 16 s.cfg.origin)) := by
  obtain ⟨hbase, -, horigin, -⟩ := (Config.wf_iff _).1 hcfg
  have hfont := Config.font_le_capacity hcfg
  rcases resetMachine_cases s with ⟨-, hfits, -⟩ | ⟨-, -, h⟩ | ⟨hno, -⟩
  · rw [admitted_iff] at hfits
    omega
  · exact h
  · rw [admitted_eq_false_iff] at hno
    omega

/-- The font leaves memory from ORIGIN on cleared. -/
theorem Memory.read_font_of_origin_le {c : Config} (hc : Config.wf c = true) {a : Nat} (ha : c.origin ≤ a) :
    Memory.read (Memory.writeBytes [] c.fontBase c.fontData) a = 0 := by
  obtain ⟨hbase, hlen, -, -⟩ := (Config.wf_iff _).1 hc
  exact Memory.read_writeBytes_outside [] c.fontData (.inr (by omega))

/-- The glyph of a digit starts below ORIGIN, so I holds its address exactly (44_index_memory.md R183). -/
theorem toNat_glyphAddress {c : Config} (hc : Config.wf c = true) {d : Byte} (hd : d.toNat ≤ 15) :
    (glyphAddress c d).toNat = c.fontBase + c.glyphBytes * d.toNat := by
  obtain ⟨hbase, -, horigin, hcap⟩ := (Config.wf_iff _).1 hc
  have hglyph : c.glyphBytes * d.toNat ≤ c.glyphBytes * 15 := Nat.mul_le_mul_left _ hd
  rw [glyphAddress, BitVec.toNat_ofNat, two_pow_iwidth]
  exact Nat.mod_eq_of_lt (by omega)

/-- The digits of FX29, in words. -/
theorem inDigitRange_iff (b : Byte) : inDigitRange b = true ↔ b.toNat ≤ 15 := by
  simp [inDigitRange, glyphs, Nat.lt_succ_iff]

/-- FX29 on a digit. -/
theorem exec_ldFont_of_le {s : State} {x : Reg} (h : (s.getV x).toNat ≤ 15) :
    exec (.ldFont x) s = .next (s.setIndex (glyphAddress s.cfg (s.getV x))) := if_pos ((inDigitRange_iff _).2 h)

/-- FX29 above the digits. -/
theorem exec_ldFont_of_lt {s : State} {x : Reg} (h : 15 < (s.getV x).toNat) :
    exec (.ldFont x) s = .refused (.digitOutOfRange (s.getV x)) :=
  if_neg (mt (inDigitRange_iff _).1 (Nat.not_le_of_lt h))

end Machine

open Machine

/-- Settles O21: the reset sequence has written the font alone, which ends at or below ORIGIN. -/
theorem oversizedRomHalts : Obligations.OversizedRomHalts := by
  intro s rest hin hcfg hrom
  obtain ⟨hmem, hrun, herr⟩ := resetMachine_of_oversized (s := { s with inputs := rest }) hcfg hrom
  obtain ⟨-, -, horigin, hcap⟩ := (Config.wf_iff _).1 hcfg
  refine ⟨_, _, step_reset hin, hrun, herr, ?_, fun a ha => ?_⟩
  · rw [BitVec.toNat_ofNat, two_pow_pcwidth]
    exact Nat.mod_eq_of_lt (by simp only; omega)
  · rw [hmem]
    exact Memory.read_font_of_origin_le hcfg ha

/-- Settles O44: only I changes, to the address of the glyph. -/
theorem fontAddress : Obligations.FontAddress := by
  intro s x
  constructor
  · intro hd
    exact ⟨_, exec_ldFont_of_le hd, rfl, fun hcfg => toNat_glyphAddress hcfg hd⟩
  · intro hd
    exact exec_ldFont_of_lt hd

end Sys2Proof
end

section
/-! The two-level dispatch (30_encoding.md R95 to R103): the second level an opcode selects, the operations the second levels answer,
and that the operation of a word encodes back to the word. -/

namespace Sys2Proof

section
variable {f g : Fields} {i : Instr}

/-- The first level (R97): the opcodes with a second level one by one, the others by the format of their operands. -/
theorem op_families (op : BitVec 4) :
    op = 0x0 ∨ op = 0x5 ∨ op = 0x9 ∨ op = 0x8 ∨ op = 0xE ∨ op = 0xF ∨
      (op = 0x1 ∨ op = 0x2 ∨ op = 0xA ∨ op = 0xB) ∨ (op = 0x3 ∨ op = 0x4 ∨ op = 0x6 ∨ op = 0x7 ∨ op = 0xC) ∨ op = 0xD := by
  revert op
  decide

theorem dispatchFields_system (h : f.op = 0x0) : dispatchFields f = dispatchSystem f := by simp [dispatchFields, h]

theorem dispatchFields_seReg (h : f.op = 0x5) : dispatchFields f = dispatchRegSkip f (.seReg f.x f.y) := by
  simp [dispatchFields, h]

theorem dispatchFields_sneReg (h : f.op = 0x9) : dispatchFields f = dispatchRegSkip f (.sneReg f.x f.y) := by
  simp [dispatchFields, h]

theorem dispatchFields_alu (h : f.op = 0x8) : dispatchFields f = dispatchAlu f := by simp [dispatchFields, h]

theorem dispatchFields_keySkip (h : f.op = 0xE) : dispatchFields f = dispatchKeySkip f := by simp [dispatchFields, h]

theorem dispatchFields_misc (h : f.op = 0xF) : dispatchFields f = dispatchMisc f := by simp [dispatchFields, h]

/-! An operation that a second level answers encodes to the opcode of the family and the fields. -/

theorem encode_of_dispatchSystem (h : dispatchSystem f = some i) : encode i = 0x0#4 ++ f.nnn := by
  unfold dispatchSystem at h
  split_ifs at h with hnnn hnnn <;> cases h <;> rw [hnnn] <;> rfl

theorem dispatchRegSkip_eq_some {j : Instr} (h : dispatchRegSkip f j = some i) : i = j ∧ f.n = 0 := by
  unfold dispatchRegSkip at h
  split_ifs at h with hn
  exact ⟨(Option.some.inj h).symm, hn⟩

theorem encode_of_dispatchAlu (h : dispatchAlu f = some i) : encode i = 0x8#4 ++ f.x ++ f.y ++ f.n := by
  unfold dispatchAlu at h
  split_ifs at h with hn hn hn hn hn hn hn hn hn <;> cases h <;> rw [hn] <;> rfl

theorem encode_of_dispatchKeySkip (h : dispatchKeySkip f = some i) : encode i = 0xE#4 ++ f.x ++ f.nn := by
  unfold dispatchKeySkip at h
  split_ifs at h with hnn hnn <;> cases h <;> rw [hnn] <;> rfl

theorem encode_of_dispatchMisc (h : dispatchMisc f = some i) : encode i = 0xF#4 ++ f.x ++ f.nn := by
  unfold dispatchMisc at h
  split_ifs at h with hnn hnn hnn hnn hnn hnn hnn hnn hnn <;> cases h <;> rw [hnn] <;> rfl

/-- The operation of a word encodes to the word's opcode and fields, in one of the three formats of R93. -/
theorem encode_of_dispatchFields (h : dispatchFields f = some i) :
    encode i = f.op ++ f.nnn ∨ encode i = f.op ++ f.x ++ f.nn ∨ encode i = f.op ++ f.x ++ f.y ++ f.n := by
  rcases op_families f.op with h0 | h5 | h9 | h8 | hE | hF | hnnn | hxnn | hD
  · exact .inl (h0 ▸ encode_of_dispatchSystem (dispatchFields_system h0 ▸ h))
  · obtain ⟨rfl, hn⟩ := dispatchRegSkip_eq_some (dispatchFields_seReg h5 ▸ h)
    exact .inr (.inr (by rw [h5, hn]; rfl))
  · obtain ⟨rfl, hn⟩ := dispatchRegSkip_eq_some (dispatchFields_sneReg h9 ▸ h)
    exact .inr (.inr (by rw [h9, hn]; rfl))
  · exact .inr (.inr (h8 ▸ encode_of_dispatchAlu (dispatchFields_alu h8 ▸ h)))
  · exact .inr (.inl (hE ▸ encode_of_dispatchKeySkip (dispatchFields_keySkip hE ▸ h)))
  · exact .inr (.inl (hF ▸ encode_of_dispatchMisc (dispatchFields_misc hF ▸ h)))
  · refine .inl ?_
    rcases hnnn with hop | hop | hop | hop <;> obtain rfl : _ = i := by simpa [dispatchFields, hop] using h
    all_goals rw [hop]; rfl
  · refine .inr (.inl ?_)
    rcases hxnn with hop | hop | hop | hop | hop <;> obtain rfl : _ = i := by simpa [dispatchFields, hop] using h
    all_goals rw [hop]; rfl
  · obtain rfl : _ = i := by simpa [dispatchFields, hD] using h
    exact .inr (.inr (by rw [hD]; rfl))

/-- The encoder undoes the dispatch: no bit of a defined word is lost. -/
theorem encode_of_dispatch {w : Word} (h : dispatch w = some i) : encode i = w := by
  rcases encode_of_dispatchFields h with hi | hi | hi
  · exact hi.trans (word_eq_op_nnn w).symm
  · exact hi.trans (word_eq_op_x_nn w).symm
  · exact hi.trans (word_eq_op_x_y_n w).symm

/-- The dispatch undoes the encoder. -/
theorem dispatch_encode (i : Instr) : dispatch (encode i) = some i := by
  cases i with
  | cls | ret => rfl
  | jp nnn | call nnn | ldI nnn | jpV0 nnn => simp [encode, dispatch, dispatchFields, fields_op_nnn]
  | seImm x nn | sneImm x nn | ldImm x nn | addImm x nn | rnd x nn =>
    simp [encode, dispatch, dispatchFields, fields_op_x_nn]
  | drw x y n => simp [encode, dispatch, dispatchFields, fields_op_x_y_n]
  | seReg x y | sneReg x y => simp [encode, dispatch, dispatchFields, dispatchRegSkip, fields_op_x_y_n]
  | ldReg x y | orReg x y | andReg x y | xorReg x y | addReg x y | sub x y | shr x y | subn x y | shl x y =>
    simp [encode, dispatch, dispatchFields, dispatchAlu, fields_op_x_y_n]
  | skp x | sknp x => simp +decide [encode, dispatch, dispatchFields, dispatchKeySkip, fields_op_x_nn]
  | ldVxDt x | ldVxKey x | ldDtVx x | ldStVx x | addI x | ldFont x | ldBcd x | stRegs x | ldRegs x =>
    simp +decide [encode, dispatch, dispatchFields, dispatchMisc, fields_op_x_nn]

/-- Whether a word is defined depends on its opcode and on the one field its family compares (R98 to R102). -/
theorem dispatchFields_isSome_congr (hop : f.op = g.op) (hnnn : g.op = 0x0 → f.nnn = g.nnn)
    (hn : g.op = 0x5 ∨ g.op = 0x9 ∨ g.op = 0x8 → f.n = g.n) (hnn : g.op = 0xE ∨ g.op = 0xF → f.nn = g.nn) :
    (dispatchFields f).isSome = (dispatchFields g).isSome := by
  rcases op_families g.op with h0 | h5 | h9 | h8 | hE | hF | h | h | h
  · rw [dispatchFields_system h0, dispatchFields_system (hop.trans h0)]
    simp only [dispatchSystem, hnnn h0, apply_ite Option.isSome, Option.isSome_some]
  · rw [dispatchFields_seReg h5, dispatchFields_seReg (hop.trans h5)]
    simp only [dispatchRegSkip, hn (.inl h5), apply_ite Option.isSome, Option.isSome_some]
  · rw [dispatchFields_sneReg h9, dispatchFields_sneReg (hop.trans h9)]
    simp only [dispatchRegSkip, hn (.inr (.inl h9)), apply_ite Option.isSome, Option.isSome_some]
  · rw [dispatchFields_alu h8, dispatchFields_alu (hop.trans h8)]
    simp only [dispatchAlu, hn (.inr (.inr h8)), apply_ite Option.isSome, Option.isSome_some]
  · rw [dispatchFields_keySkip hE, dispatchFields_keySkip (hop.trans hE)]
    simp only [dispatchKeySkip, hnn (.inl hE), apply_ite Option.isSome, Option.isSome_some]
  · rw [dispatchFields_misc hF, dispatchFields_misc (hop.trans hF)]
    simp only [dispatchMisc, hnn (.inr hF), apply_ite Option.isSome, Option.isSome_some]
  · rcases h with h | h | h | h <;> simp [dispatchFields, hop, h]
  · rcases h with h | h | h | h | h <;> simp [dispatchFields, hop, h]
  · simp [dispatchFields, hop, h]

end

/-- Settles O1: the two bytes put together are the encoded word, and the dispatch undoes the encoder. -/
theorem decodeOfEncode : Obligations.DecodeOfEncode := by
  intro i rest
  simp only [encodeBytes, bytesOfWord, List.cons_append, List.nil_append, decodeBytes, wordOfBytes_bytesOfWord,
    dispatch_encode]

end Sys2Proof
end

section
/-! The table of 30_encoding.md R96 against the encoder and the dispatch. -/

namespace Sys2Proof

/-! A word under the masks of the table, digit by digit: a mask keeps the opcode, drops the selectors and keeps or drops the rest. -/

theorem op_nnn_and_mask (op : BitVec 4) (nnn : Addr12) : (op ++ nnn) &&& (0xF#4 ++ 0#12) = op ++ 0#12 := by
  rw [BitVec.and_append, BitVec.and_zero]
  exact congrArg (· ++ 0#12) BitVec.and_allOnes

theorem op_x_nn_and_mask (op : BitVec 4) (x : Reg) (nn m : Byte) :
    (op ++ x ++ nn) &&& (0xF#4 ++ 0#4 ++ m) = op ++ 0#4 ++ (nn &&& m) := by
  rw [BitVec.and_append, BitVec.and_append, BitVec.and_zero]
  exact congrArg (· ++ 0#4 ++ (nn &&& m)) BitVec.and_allOnes

theorem op_x_y_n_and_mask (op : BitVec 4) (x y : Reg) (n m : Nibble) :
    (op ++ x ++ y ++ n) &&& (0xF#4 ++ 0#4 ++ 0#4 ++ m) = op ++ 0#4 ++ 0#4 ++ (n &&& m) := by
  rw [BitVec.and_append, BitVec.and_append, BitVec.and_append, BitVec.and_zero, BitVec.and_zero]
  exact congrArg (· ++ 0#4 ++ 0#4 ++ (n &&& m)) BitVec.and_allOnes

/-- An encoded word matches the row of its operation. -/
theorem encode_and_mask (i : Instr) : encode i &&& (rowOf i).mask = (rowOf i).pattern := by
  cases i with
  | cls | ret => rfl
  | jp nnn | call nnn | ldI nnn | jpV0 nnn => exact op_nnn_and_mask _ nnn
  | seImm x nn | sneImm x nn | ldImm x nn | addImm x nn | rnd x nn =>
    exact (op_x_nn_and_mask _ x nn 0#8).trans (congrArg (_ ++ 0#4 ++ ·) BitVec.and_zero)
  | drw x y n => exact (op_x_y_n_and_mask _ x y n 0#4).trans (congrArg (_ ++ 0#4 ++ 0#4 ++ ·) BitVec.and_zero)
  | seReg x y | sneReg x y | ldReg x y | orReg x y | andReg x y | xorReg x y | addReg x y | sub x y | shr x y | subn x y
  | shl x y => exact op_x_y_n_and_mask _ x y _ 0xF
  | skp x | sknp x | ldVxDt x | ldVxKey x | ldDtVx x | ldStVx x | addI x | ldFont x | ldBcd x | stRegs x | ldRegs x =>
    exact op_x_nn_and_mask _ x _ 0xFF

theorem rowOf_mem_rows (i : Instr) : rowOf i ∈ rows := by
  cases i <;> simp [rowOf, rows]

/-- The rows are told apart by the bits that both masks of a pair fix. -/
theorem rows_eq_of_patterns_agree :
    ∀ r₁ ∈ rows, ∀ r₂ ∈ rows, r₁.pattern &&& r₂.mask = r₂.pattern &&& r₁.mask → r₁ = r₂ := by
  decide

theorem dispatch_pattern_isSome : ∀ r ∈ rows, (dispatch r.pattern).isSome = true := by
  decide

/-- A row fixes the opcode and the field that the family compares. -/
theorem rows_mask : ∀ r ∈ rows, (fields r.mask).op = 0xF ∧
    ((fields r.pattern).op = 0x0 → (fields r.mask).nnn = 0xFFF) ∧
    ((fields r.pattern).op = 0x5 ∨ (fields r.pattern).op = 0x9 ∨ (fields r.pattern).op = 0x8 → (fields r.mask).n = 0xF) ∧
    ((fields r.pattern).op = 0xE ∨ (fields r.pattern).op = 0xF → (fields r.mask).nn = 0xFF) := by
  decide

/-- A field that lies under the mask is the same in the word as in the pattern. -/
theorem extractLsb'_eq_of_and_eq {w m p : Word} {lo len : Nat} (h : w &&& m = p)
    (hm : m.extractLsb' lo len = BitVec.allOnes len) : w.extractLsb' lo len = p.extractLsb' lo len := by
  rw [← h, BitVec.extractLsb'_and, hm, BitVec.and_allOnes]

/-- A word that matches a row is dispatched as the row's pattern is: it agrees with it in all the dispatch looks at. -/
theorem dispatch_isSome_of_row {w : Word} {r : Row} (hr : r ∈ rows) (h : w &&& r.mask = r.pattern) :
    (dispatch w).isSome = true := by
  obtain ⟨hop, hnnn, hn, hnn⟩ := rows_mask r hr
  rw [← dispatch_pattern_isSome r hr]
  exact dispatchFields_isSome_congr (extractLsb'_eq_of_and_eq h hop) (fun hp => extractLsb'_eq_of_and_eq h (hnnn hp))
    (fun hp => extractLsb'_eq_of_and_eq h (hn hp)) (fun hp => extractLsb'_eq_of_and_eq h (hnn hp))

/-- Settles O2: a defined word is the encoded word of its operation, which matches the operation's row; a word that matches a row
is defined; and a word that matches two rows makes their patterns agree under both masks. -/
theorem dispatchIsTheTable : Obligations.DispatchIsTheTable := by
  refine ⟨rfl, fun w => ⟨fun ⟨i, hi⟩ => ?row, fun ⟨r, hr, h⟩ => ?defined⟩, fun w i hi => ?ownRow,
    fun w r₁ hr₁ r₂ hr₂ h₁ h₂ => ?disjoint⟩
  case row => exact ⟨rowOf i, rowOf_mem_rows i, encode_of_dispatch hi ▸ encode_and_mask i⟩
  case defined => exact Option.isSome_iff_exists.1 (dispatch_isSome_of_row hr h)
  case ownRow =>
    have hw := encode_of_dispatch hi
    exact ⟨rowOf_mem_rows i, hw ▸ encode_and_mask i, hw⟩
  case disjoint =>
    apply rows_eq_of_patterns_agree r₁ hr₁ r₂ hr₂
    rw [← h₁, ← h₂, BitVec.and_assoc, BitVec.and_assoc, BitVec.and_comm r₁.mask]

end Sys2Proof
end

section
/-! The fields of a word (30_encoding.md R92), the families by their second level (R99 to R101), and sample words. -/

namespace Sys2Proof

/-- A field as the spec writes it: a shift and a mask (R92). -/
theorem toNat_field_eq_and (w : Word) (lo len : Nat) :
    (w.extractLsb' lo len).toNat = (w.toNat >>> lo) &&& (2 ^ len - 1) := by
  rw [BitVec.extractLsb'_toNat, Nat.and_two_pow_sub_one_eq_mod]

/-- Two fields side by side are the field of both. -/
theorem field_append (w : Word) (lo len len' : Nat) :
    w.extractLsb' (lo + len) len' ++ w.extractLsb' lo len = w.extractLsb' lo (len' + len) :=
  BitVec.extractLsb'_append_extractLsb'_eq_extractLsb' rfl

/-- Settles O3: each field is a shift and a mask, and adjacent fields join. -/
theorem fieldsOfTheWord : Obligations.FieldsOfTheWord := by
  intro w
  refine ⟨?op, toNat_field_eq_and w 8 4, toNat_field_eq_and w 4 4, toNat_field_eq_and w 0 4, toNat_field_eq_and w 0 8,
    toNat_field_eq_and w 0 12, ?nnn, (field_append w 0 4 4).symm⟩
  case op =>
    have hw := word_lt w
    rw [fields, toNat_field, Nat.shiftRight_eq_div_pow]
    exact Nat.mod_eq_of_lt (by omega)
  case nnn =>
    have hxy : (fields w).x ++ (fields w).y = w.extractLsb' 4 8 := field_append w 4 4 4
    rw [hxy]
    exact (field_append w 0 4 8).symm

/-- Settles O5: the comparisons of the dispatch, in numbers. -/
theorem aluFamilyByLowNibble : Obligations.AluFamilyByLowNibble := by
  intro x y n
  obtain ⟨hop, hx, hy, hn⟩ := fields_op_x_y_n 0x8#4 x y n
  rw [dispatch, dispatchFields_alu hop, dispatchAlu, hx, hy, hn]
  simp only [BitVec.toNat_eq]
  split_ifs <;> simp_all

namespace Machine

/-- A cycle that fetches an undefined word raises InvalidInstruction (R103). -/
theorem cycle_of_undefined {s : State} {w : Word} (hf : fetch s = .ok w) (hw : dispatch w = none) :
    cycle s = raise (.invalidInstruction w) (s.setPc (s.pc + 2)) := by
  simp only [cycle, hf, hw]

end Machine

open Machine

/-- Settles O6: the comparisons of the dispatch, in numbers; and 0xFFFF is fetched, undefined and raised. -/
theorem keyAndMiscFamiliesByLowByte : Obligations.KeyAndMiscFamiliesByLowByte := by
  refine ⟨fun x nn => ?key, fun x nn => ?misc, fun s rest hr hturn hpc hhi hlo => ?halts⟩
  case key =>
    obtain ⟨hop, hx, hnn⟩ := fields_op_x_nn 0xE#4 x nn
    rw [dispatch, dispatchFields_keySkip hop, dispatchKeySkip, hx, hnn]
  case misc =>
    obtain ⟨hop, hx, hnn⟩ := fields_op_x_nn 0xF#4 x nn
    rw [dispatch, dispatchFields_misc hop, dispatchMisc, hx, hnn]
    simp only [BitVec.toNat_eq]
    split_ifs <;> simp_all
  case halts =>
    have hf : fetch { s with inputs := rest } = .ok 0xFFFF := by
      rw [fetch_of_le (s := { s with inputs := rest }) hpc]
      simp only [hhi, hlo]
      rfl
    exact ⟨_, (step_running hturn hr).trans (cycle_of_undefined hf rfl), rfl, rfl⟩

/-- Settles O7: each of the words is evaluated. -/
theorem sampleWordsDecode : Obligations.SampleWordsDecode := by
  unfold Obligations.SampleWordsDecode
  and_intros <;> rfl

end Sys2Proof
end

section
/-! Control flow (40_control_flow.md): the jumps, and a call and a return by what the stack holds. -/

namespace Sys2Proof

namespace Machine

/-- The target of BNNN (R134) is the exact sum: a byte and a 12-bit address fit in a pc together. -/
theorem toNat_jpV0 (b : Byte) (nnn : Addr12) :
    (b.setWidth pcwidth + addrOf nnn : CodeAddr).toNat = b.toNat + nnn.toNat := by
  have hb : (b.setWidth pcwidth).toNat = b.toNat := BitVec.toNat_setWidth_of_le (by decide)
  have hn : (addrOf nnn).toNat = nnn.toNat := toNat_setWidth_addr12 nnn
  have hlt : (b.setWidth pcwidth).toNat + (addrOf nnn).toNat < 2 ^ pcwidth := by
    have := byte_lt b
    have := nnn.isLt
    rw [hb, hn, two_pow_pcwidth]
    omega
  rw [BitVec.toNat_add_of_lt hlt, hb, hn]

/-- A call below STACK_DEPTH entries (R133). -/
theorem exec_call_of_lt {s : State} (nnn : Addr12) (h : s.stack.length < s.cfg.stackDepth) :
    exec (.call nnn) s = .next { s with stack := s.pc :: s.stack, pc := addrOf nnn } := by
  obtain ⟨-, e⟩ := (s.push_cases s.pc).resolve_right fun ⟨hfull, _⟩ => Nat.not_lt.2 hfull h
  simp only [exec, execCall, e, State.setPc]

/-- A call on a full stack (R133). -/
theorem exec_call_of_le {s : State} (nnn : Addr12) (h : s.cfg.stackDepth ≤ s.stack.length) :
    exec (.call nnn) s = raise .stackOverflow s := by
  obtain ⟨-, e⟩ := (s.push_cases s.pc).resolve_left fun ⟨hroom, _⟩ => Nat.not_lt.2 h hroom
  simp only [exec, execCall, e]

/-- A return with an entry on the stack (R131). -/
theorem exec_ret_of_cons {s : State} {a : CodeAddr} {rest : List CodeAddr} (h : s.stack = a :: rest) :
    exec .ret s = .next { s with stack := rest, pc := a } := by
  obtain ⟨a', rest', hcons, e⟩ | ⟨hnil, -⟩ := s.pop_cases
  · obtain ⟨rfl, rfl⟩ := List.cons.inj (h.symm.trans hcons)
    simp only [exec, execRet, e, State.setPc]
  · cases h.symm.trans hnil

/-- A return on an empty stack (R131). -/
theorem exec_ret_of_nil {s : State} (h : s.stack = []) : exec .ret s = raise .stackUnderflow s := by
  obtain ⟨a, rest, hcons, -⟩ | ⟨-, e⟩ := s.pop_cases
  · cases h.symm.trans hcons
  · simp only [exec, execRet, e]

end Machine

open Machine

/-- Settles O39: the target of each jump in numbers. -/
theorem jumps : Obligations.Jumps := by
  intro s nnn
  constructor
  · exact ⟨s.setPc (addrOf nnn), rfl, rfl, toNat_setWidth_addr12 nnn⟩
  · exact ⟨s.setPc ((s.getV 0).setWidth pcwidth + addrOf nnn), rfl, rfl, toNat_jpV0 (s.getV 0) nnn⟩

/-- Settles O40: a call with room on the stack, and one on a full stack. -/
theorem callPushesReturnAddress : Obligations.CallPushesReturnAddress := by
  intro s nnn
  constructor
  · intro hroom
    exact ⟨_, exec_call_of_lt nnn hroom, rfl, toNat_setWidth_addr12 nnn⟩
  · intro hfull
    exact exec_call_of_le nnn hfull

/-- Settles O41: a return with an entry on the stack, and one on an empty stack. -/
theorem returnPopsTheStack : Obligations.ReturnPopsTheStack :=
  fun _ => ⟨fun _ _ hstack => exec_ret_of_cons hstack, exec_ret_of_nil⟩

/-- Settles O42: the entry on top after the body is the one the call pushed, so the return takes it. -/
theorem callThenReturnComesBack : Obligations.CallThenReturnComesBack := by
  intro s nnn hroom
  refine ⟨_, exec_call_of_lt nnn hroom, fun b hstack => ?_⟩
  exact ⟨_, exec_ret_of_cons hstack, rfl, rfl, rfl⟩

end Sys2Proof
end

section
/-! The conditional skips (41_skips.md): the whole state after each, and the key skips by the range of VX. -/

namespace Sys2Proof

namespace Machine

/-- A skip taken if two values agree (R140). -/
theorem State.skipIf_beq {α : Type} [DecidableEq α] (s : State) (a b : α) :
    s.skipIf (a == b) = { s with pc := if a = b then s.pc + 2 else s.pc } := by
  by_cases h : a = b <;> simp [h, State.skipIf, State.setPc]

/-- A skip taken if two values differ (R140). -/
theorem State.skipIf_bne {α : Type} [DecidableEq α] (s : State) (a b : α) :
    s.skipIf (a != b) = { s with pc := if a = b then s.pc else s.pc + 2 } := by
  by_cases h : a = b <;> simp [h, State.skipIf, State.setPc]

/-- 3XNN (R141). -/
theorem exec_seImm (s : State) (x : Reg) (nn : Byte) :
    exec (.seImm x nn) s = .next { s with pc := if s.getV x = nn then s.pc + 2 else s.pc } := by
  rw [exec, execSeImm, State.skipIf_beq]

/-- 4XNN (R142). -/
theorem exec_sneImm (s : State) (x : Reg) (nn : Byte) :
    exec (.sneImm x nn) s = .next { s with pc := if s.getV x = nn then s.pc else s.pc + 2 } := by
  rw [exec, execSneImm, State.skipIf_bne]

/-- 5XY0 (R143). -/
theorem exec_seReg (s : State) (x y : Reg) :
    exec (.seReg x y) s = .next { s with pc := if s.getV x = s.getV y then s.pc + 2 else s.pc } := by
  rw [exec, execSeReg, State.skipIf_beq]

/-- 9XY0 (R144). -/
theorem exec_sneReg (s : State) (x y : Reg) :
    exec (.sneReg x y) s = .next { s with pc := if s.getV x = s.getV y then s.pc else s.pc + 2 } := by
  rw [exec, execSneReg, State.skipIf_bne]

theorem inKeyRange_iff (c : Config) (b : Byte) : inKeyRange c b = true ↔ b.toNat < c.nkeys := decide_eq_true_iff

/-- A key skip on one of the keys (R145, R146): one call, whose free answer decides. -/
theorem skipOnKey_of_lt {s : State} {x : Reg} (wanted : Bool) (h : (s.getV x).toNat < s.cfg.nkeys) :
    skipOnKey x wanted s = .next { s with
      pc := if Config.keyPressed s.fresh = wanted then s.pc + 2 else s.pc
      calls := s.calls ++ [.isPressed (s.getV x)], fresh := s.fresh + 1 } := by
  rw [skipOnKey, if_pos ((inKeyRange_iff ..).2 h), State.skipIf_beq]
  rfl

/-- A key skip on a value that is no key (the spec's decision D10). -/
theorem skipOnKey_of_le {s : State} {x : Reg} (wanted : Bool) (h : s.cfg.nkeys ≤ (s.getV x).toNat) :
    skipOnKey x wanted s = .refused (.keyIndexOutOfRange (s.getV x)) :=
  if_neg (mt (inKeyRange_iff ..).1 (Nat.not_lt.2 h))

end Machine

open Machine

/-- Settles O36: each skip is one comparison of VX with NN. -/
theorem skipOnImmediate : Obligations.SkipOnImmediate :=
  fun s x nn => ⟨exec_seImm s x nn, exec_sneImm s x nn⟩

/-- Settles O37: each skip is one comparison of VX with VY, and a register agrees with itself. -/
theorem skipOnRegisters : Obligations.SkipOnRegisters := by
  intro s x y
  refine ⟨exec_seReg s x y, exec_sneReg s x y, ?_, ?_⟩
  · rw [exec_seReg, if_pos rfl]
  · rw [exec_sneReg, if_pos rfl]

/-- Settles O38: on a key the two skips want opposite answers; on any other value both are refused. -/
theorem skipOnKey : Obligations.SkipOnKey := by
  intro s x
  constructor
  · intro hkey
    refine ⟨skipOnKey_of_lt true hkey, (skipOnKey_of_lt false hkey).trans ?_⟩
    cases Config.keyPressed s.fresh <;> rfl
  · intro hnone
    exact ⟨skipOnKey_of_le true hnone, skipOnKey_of_le false hnone⟩

end Sys2Proof
end

section
/-! The register-immediate operations (42_register_immediate.md): each is one write to VX, and RND one call of the source before it. -/

namespace Sys2Proof

namespace Machine

/-- The rule of a register write (10_state.md R20): V[x] holds the byte, the other registers and fields are kept. -/
theorem State.setV_rule (s : State) (x : Reg) (b : Byte) :
    s.setV x b = { s with v := (s.setV x b).v } ∧ (s.setV x b).getV x = b ∧
      ∀ r, r ≠ x → (s.setV x b).getV r = s.getV r :=
  ⟨rfl, s.getV_setV_same x b, fun _ hr => s.getV_setV_other b hr⟩

/-- 6XNN (R150). -/
theorem exec_ldImm (s : State) (x : Reg) (nn : Byte) : exec (.ldImm x nn) s = .next (s.setV x nn) := rfl

/-- 7XNN (R151): the flag of the alu is not written. -/
theorem exec_addImm (s : State) (x : Reg) (nn : Byte) :
    exec (.addImm x nn) s = .next (s.setV x (aluResult .add (s.getV x) nn)) := rfl

/-- CXNN (R152): the byte is the free answer of the state before the call. -/
theorem exec_rnd (s : State) (x : Reg) (nn : Byte) :
    exec (.rnd x nn) s = .next ((s.ask .draw8).setV x (Config.randomByte s.fresh &&& nn)) := rfl

end Machine

open Machine

/-- Settles O28: the instruction is a write of NN to VX. -/
theorem loadImmediate : Obligations.LoadImmediate :=
  fun s x nn => ⟨_, exec_ldImm s x nn, s.setV_rule x nn⟩

/-- Settles O29: the instruction is a write of the alu's sum to VX, and the sum is the exact one mod 256. -/
theorem addImmediateWithoutFlag : Obligations.AddImmediateWithoutFlag := by
  intro s x nn
  obtain ⟨hframe, hx, hother⟩ := s.setV_rule x (aluResult .add (s.getV x) nn)
  refine ⟨_, exec_addImm s x nn, hframe, ?_, hother⟩
  rw [hx, toNat_aluResult_add]

/-- Settles O30: after the call, which keeps every register, the instruction is a write of the masked answer to VX; the mask 0
leaves nothing of it. -/
theorem randomByteMasked : Obligations.RandomByteMasked := by
  intro s x nn
  obtain ⟨hframe, hx, hother⟩ := (s.ask .draw8).setV_rule x (Config.randomByte s.fresh &&& nn)
  refine ⟨_, exec_rnd s x nn, hframe, hx, ?_, hother⟩
  rintro rfl
  exact hx.trans BitVec.and_zero

end Sys2Proof
end

section
/-! The alu operations (43_alu.md): each is the write of an alu result to VX, the last five with the flag written to VF after it. -/

namespace Sys2Proof

namespace Machine

/-- The rule of an alu instruction with a flag (R162): the flag is written last and stands in VF, also when VX is VF. -/
theorem State.writeAlu_rule (s : State) (x : Reg) {fn : AluFn} {a b : Byte} {f : Bool} (hf : aluFlag fn a b = some f) :
    s.writeAlu x fn a b = { s with v := (s.writeAlu x fn a b).v } ∧
      (x ≠ 0xF → (s.writeAlu x fn a b).getV x = aluResult fn a b) ∧ (s.writeAlu x fn a b).getV 0xF = flagByte f ∧
      ∀ r, r ≠ x → r ≠ 0xF → (s.writeAlu x fn a b).getV r = s.getV r := by
  have hwrite : s.writeAlu x fn a b = (s.setV x (aluResult fn a b)).setV 0xF (flagByte f) := by
    rw [State.writeAlu, hf]
    rfl
  rw [hwrite]
  refine ⟨rfl, fun hx => ?_, State.getV_setV_same _ _ _, fun r hr hrf => ?_⟩
  · rw [State.getV_setV_other _ _ hx, State.getV_setV_same]
  · rw [State.getV_setV_other _ _ hrf, State.getV_setV_other _ _ hr]

/-- The flag byte is the flag as a number (10_state.md R22). -/
theorem toNat_flagByte (f : Bool) : (flagByte f).toNat = f.toNat := by cases f <;> rfl

/-- The flag byte of a comparison. -/
theorem flagByte_decide (p : Prop) [Decidable p] : flagByte (decide p) = if p then 1 else 0 := by
  by_cases h : p <;> simp [flagByte, h]

/-- A bit of a byte as a flag, read off the number. -/
theorem toNat_flagByte_getLsbD (a : Byte) (k : Nat) : (flagByte (a.getLsbD k)).toNat = a.toNat / 2 ^ k % 2 := by
  rw [toNat_flagByte, BitVec.getLsbD, Nat.toNat_testBit]

/-- The bit a right shift shifts out (R169). -/
theorem toNat_flagByte_shiftedOutRight (a : Byte) : (flagByte (shiftedOutRight a)).toNat = a.toNat % 2 := by
  rw [shiftedOutRight, toNat_flagByte_getLsbD, Nat.pow_zero, Nat.div_one]

/-- The bit a left shift shifts out: nothing lies above it (R171). -/
theorem toNat_flagByte_shiftedOutLeft (a : Byte) : (flagByte (shiftedOutLeft a)).toNat = a.toNat / 128 := by
  have ha := byte_lt a
  rw [shiftedOutLeft_eq, toNat_flagByte_getLsbD]
  omega

/-- The value the shifts start from (the spec's decision D6). -/
theorem State.shiftOperand_eq (s : State) (x y : Reg) :
    s.shiftOperand x y = if s.cfg.shiftSrc = .x then s.getV x else s.getV y := by
  cases h : s.cfg.shiftSrc <;> simp [State.shiftOperand, h]

/-- 8XY0 (R163). -/
theorem exec_ldReg (s : State) (x y : Reg) : exec (.ldReg x y) s = .next (s.setV x (s.getV y)) := rfl

/-- 8XY1 (R164). -/
theorem exec_orReg (s : State) (x y : Reg) : exec (.orReg x y) s = .next (s.setV x (s.getV x ||| s.getV y)) := rfl

/-- 8XY2 (R165). -/
theorem exec_andReg (s : State) (x y : Reg) : exec (.andReg x y) s = .next (s.setV x (s.getV x &&& s.getV y)) := rfl

/-- 8XY3 (R166). -/
theorem exec_xorReg (s : State) (x y : Reg) : exec (.xorReg x y) s = .next (s.setV x (s.getV x ^^^ s.getV y)) := rfl

/-- 8XY4 (R167). -/
theorem exec_addReg (s : State) (x y : Reg) :
    exec (.addReg x y) s = .next (s.writeAlu x .add (s.getV x) (s.getV y)) := rfl

/-- 8XY5 (R168). -/
theorem exec_sub (s : State) (x y : Reg) : exec (.sub x y) s = .next (s.writeAlu x .sub (s.getV x) (s.getV y)) := rfl

/-- 8XY7 (R170). -/
theorem exec_subn (s : State) (x y : Reg) : exec (.subn x y) s = .next (s.writeAlu x .sub (s.getV y) (s.getV x)) := rfl

/-- 8XY6 (R169). -/
theorem exec_shr (s : State) (x y : Reg) :
    exec (.shr x y) s = .next (s.writeAlu x .shr (s.shiftOperand x y) (s.getV y)) := rfl

/-- 8XYE (R171). -/
theorem exec_shl (s : State) (x y : Reg) :
    exec (.shl x y) s = .next (s.writeAlu x .shl (s.shiftOperand x y) (s.getV y)) := rfl

end Machine

open Machine

/-- Settles O31: each of the four is a write of its result to VX. -/
theorem copyAndLogic : Obligations.CopyAndLogic := by
  intro s x y i b hmem
  have hexec : exec i s = .next (s.setV x b) := by
    simp only [List.mem_cons, Prod.mk.injEq, List.not_mem_nil, or_false] at hmem
    obtain ⟨rfl, rfl⟩ | ⟨rfl, rfl⟩ | ⟨rfl, rfl⟩ | ⟨rfl, rfl⟩ := hmem
    · exact exec_ldReg s x y
    · exact exec_orReg s x y
    · exact exec_andReg s x y
    · exact exec_xorReg s x y
  exact ⟨_, hexec, s.setV_rule x b⟩

/-- Settles O32: the alu's sum and carry, written in that order. -/
theorem addSetsCarry : Obligations.AddSetsCarry := by
  intro s x y
  obtain ⟨hframe, hx, hflag, hother⟩ := s.writeAlu_rule x (fn := .add) (a := s.getV x) (b := s.getV y) rfl
  refine ⟨_, exec_addReg s x y, hframe, fun hne => ?_, ?_, hother⟩
  · rw [hx hne, toNat_aluResult_add]
  · rw [hflag, carry_eq, flagByte_decide]

/-- Settles O33: the alu's difference VX - VY and its not-borrow, written in that order. -/
theorem subtractSetsNotBorrow : Obligations.SubtractSetsNotBorrow := by
  intro s x y
  obtain ⟨hframe, hx, hflag, hother⟩ := s.writeAlu_rule x (fn := .sub) (a := s.getV x) (b := s.getV y) rfl
  refine ⟨_, exec_sub s x y, hframe, fun hne => ?_, hflag.trans (flagByte_decide _), hother⟩
  rw [hx hne, toNat_aluResult_sub]

/-- Settles O34: the alu's difference VY - VX and its not-borrow, written in that order. -/
theorem reverseSubtractSetsNotBorrow : Obligations.ReverseSubtractSetsNotBorrow := by
  intro s x y
  obtain ⟨hframe, hx, hflag, hother⟩ := s.writeAlu_rule x (fn := .sub) (a := s.getV y) (b := s.getV x) rfl
  refine ⟨_, exec_subn s x y, hframe, fun hne => ?_, hflag.trans (flagByte_decide _), hother⟩
  rw [hx hne, toNat_aluResult_sub]

/-- Settles O35: the alu's half or double of the shift operand, then the bit shifted out. -/
theorem shiftsByOne : Obligations.ShiftsByOne := by
  intro s x y b hb
  rw [← s.shiftOperand_eq x y] at hb
  subst hb
  constructor
  · obtain ⟨hframe, hx, hflag, hother⟩ := s.writeAlu_rule x (fn := .shr) (a := s.shiftOperand x y) (b := s.getV y) rfl
    refine ⟨_, exec_shr s x y, hframe, fun hne => ?_, ?_, hother⟩
    · rw [hx hne, toNat_aluResult_shr]
    · rw [hflag, toNat_flagByte_shiftedOutRight]
  · obtain ⟨hframe, hx, hflag, hother⟩ := s.writeAlu_rule x (fn := .shl) (a := s.shiftOperand x y) (b := s.getV y) rfl
    refine ⟨_, exec_shl s x y, hframe, fun hne => ?_, ?_, hother⟩
    · rw [hx hne, toNat_aluResult_shl]
    · rw [hflag, toNat_flagByte_shiftedOutLeft]

end Sys2Proof
end

section
/-! Index register and memory operations (44_index_memory.md): what ANNN and FX1E put into I, and FX33, FX55 and FX65 with their
window in memory; a window that is not is `refusedAccessTransfersNothing`. -/

namespace Sys2Proof

namespace Machine

/-- ANNN (R181). -/
theorem exec_ldI (s : State) (nnn : Addr12) : exec (.ldI nnn) s = .next (s.setIndex (nnn.setWidth iwidth)) := rfl

/-- FX1E (R182). -/
theorem exec_addI (s : State) (x : Reg) :
    exec (.addI x) s = .next (s.setIndex (s.index + (s.getV x).setWidth iwidth)) := rfl

/-- The sum of FX1E wraps at 16 bits (R182). -/
theorem toNat_index_add_byte (a : Index) (b : Byte) : (a + b.setWidth iwidth).toNat = (a.toNat + b.toNat) % 65536 := by
  have hb : (b.setWidth iwidth).toNat = b.toNat := BitVec.toNat_setWidth_of_le (by decide)
  rw [BitVec.toNat_add, hb, two_pow_iwidth]

/-- FX33 with its window in memory (R184) stores the digits and changes nothing else. -/
theorem exec_ldBcd_of_le {s : State} {x : Reg} (h : s.index.toNat + 3 ≤ s.cfg.capacity) :
    exec (.ldBcd x) s = .next { s with mem := Memory.writeBytes s.mem s.index.toNat (bcdDigits (s.getV x)) } := by
  have hin : admitted s.cfg.capacity s.index.toNat (bcdDigits (s.getV x)).length = true :=
    (admitted_iff _ _ _).2 ⟨by omega, h⟩
  simp only [exec, execLdBcd, State.memWrite_of_admitted hin]

/-- The digits of a byte as numbers: each is below 10 and fits its byte (R184). -/
theorem map_toNat_bcdDigits (b : Byte) :
    (bcdDigits b).map BitVec.toNat = [b.toNat / 100, b.toNat / 10 % 10, b.toNat % 10] := by
  have hb := byte_lt b
  simp (disch := omega) only [bcdDigits, List.map_cons, List.map_nil, BitVec.toNat_ofNat, two_pow_vwidth, Nat.mod_eq_of_lt]

/-- The digits written at `k` are at `k`, `k + 1` and `k + 2`. -/
theorem Memory.toNat_read_writeBytes_bcdDigits {cap k i : Nat} {m : Memory} (hm : Memory.wf cap m = true) (hk : k + 3 ≤ cap)
    (b : Byte) (hi : i < 3) : (Memory.read (Memory.writeBytes m k (bcdDigits b)) (k + i)).toNat =
      [b.toNat / 100, b.toNat / 10 % 10, b.toNat % 10][i] := by
  rw [Memory.read_writeBytes_inside hm (bcdDigits b) hk hi]
  simp only [← map_toNat_bcdDigits]
  exact (List.getElem_map BitVec.toNat).symm

/-- FX65 with its window in memory (R186) loads the block and changes nothing else. -/
theorem exec_ldRegs_of_le {s : State} {x : Reg} (h : s.index.toNat + x.toNat + 1 ≤ s.cfg.capacity) :
    exec (.ldRegs x) s =
      .next { s with v := loadBlock s.v 0 (Memory.readBytes s.mem s.index.toNat (x.toNat + 1)) } := by
  have hin : admitted s.cfg.capacity s.index.toNat (x.toNat + 1) = true := (admitted_iff _ _ _).2 ⟨by omega, h⟩
  simp only [exec, execLdRegs, State.memRead_of_admitted hin]

/-- A block loaded into V0..VX fills a register up to VX with its byte. -/
theorem getElem_loadBlock_of_le (v : Vector Byte nregs) (m : Memory) (k : Nat) {x r : Reg} (hr : r ≤ x) :
    (loadBlock v 0 (Memory.readBytes m k (x.toNat + 1)))[r.toNat]'(reg_lt r) = Memory.read m (k + r.toNat) := by
  have hlt : r.toNat < (Memory.readBytes m k (x.toNat + 1)).length := by
    rw [Memory.length_readBytes]
    exact Nat.lt_succ_of_le hr
  rw [getElem_loadBlock _ _ _ _ r.isLt, dif_pos ⟨Nat.zero_le _, by omega⟩]
  exact Memory.getElem_readBytes m k _ _ hlt

/-- A block loaded into V0..VX keeps a register above VX. -/
theorem getElem_loadBlock_of_lt (v : Vector Byte nregs) (m : Memory) (k : Nat) {x r : Reg} (hr : x < r) :
    (loadBlock v 0 (Memory.readBytes m k (x.toNat + 1)))[r.toNat]'(reg_lt r) = v[r.toNat]'(reg_lt r) := by
  have hlt : x.toNat < r.toNat := hr
  rw [getElem_loadBlock _ _ _ _ r.isLt, dif_neg (by rw [Memory.length_readBytes]; omega)]

end Machine

open Machine

/-- Settles O43: both are a write to I, of NNN as it is and of the sum mod 65536. -/
theorem indexLoadAndAdd : Obligations.IndexLoadAndAdd :=
  fun s => ⟨fun nnn => ⟨_, exec_ldI s nnn, rfl, toNat_setWidth_addr12 nnn⟩,
    fun x => ⟨_, exec_addI s x, rfl, toNat_index_add_byte s.index (s.getV x)⟩⟩

/-- Settles O45: the three digits are one write of three bytes at I, and a refused window is that of every access. -/
theorem storeDecimalDigits : Obligations.StoreDecimalDigits := by
  intro s x hm
  refine ⟨fun hle => ?_, refusedAccessTransfersNothing (.ldBcd x) 3 s rfl⟩
  have hdigit (i : Nat) := Memory.toNat_read_writeBytes_bcdDigits (i := i) hm hle (s.getV x)
  exact ⟨_, exec_ldBcd_of_le hle, rfl, hdigit 0 (by decide), hdigit 1 (by decide), hdigit 2 (by decide),
    fun a ha => Memory.read_writeBytes_outside s.mem (bcdDigits (s.getV x)) ha⟩

/-- Settles O46: the register block is one write of X+1 bytes at I, and a refused window is that of every access. -/
theorem storeRegisterBlock : Obligations.StoreRegisterBlock := by
  intro s x hm
  refine ⟨fun hle => ?_, refusedAccessTransfersNothing (.stRegs x) (x.toNat + 1) s rfl⟩
  refine ⟨_, exec_stRegs_of_le hle, rfl, fun r hr => Memory.read_writeBytes_regBlock hm hle hr, fun a ha => ?_⟩
  rw [Nat.add_assoc, ← s.length_regBlock x] at ha
  exact Memory.read_writeBytes_outside s.mem (s.regBlock x) ha

/-- Settles O47: the block read at I fills V0..VX, and a refused window is that of every access. -/
theorem loadRegisterBlock : Obligations.LoadRegisterBlock := by
  intro s x
  refine ⟨fun hle => ?_, refusedAccessTransfersNothing (.ldRegs x) (x.toNat + 1) s rfl⟩
  exact ⟨_, exec_ldRegs_of_le hle, rfl, fun r hr => getElem_loadBlock_of_le s.v s.mem s.index.toNat hr,
    fun r hr => getElem_loadBlock_of_lt s.v s.mem s.index.toNat hr⟩

/-- Settles O48: FX65 reads the window FX55 has written, because FX55 keeps I (decision D8) and registers are no part of memory. -/
theorem storeThenLoadRestoresRegisters : Obligations.StoreThenLoadRestoresRegisters := by
  intro s x hm hle
  refine ⟨_, exec_stRegs_of_le hle, fun v' => ?_⟩
  obtain ⟨u, hload, -, hlow, hhigh⟩ :=
    (loadRegisterBlock { s with mem := Memory.writeBytes s.mem s.index.toNat (s.regBlock x), v := v' } x).1 hle
  exact ⟨u, hload, fun r hr => (hlow r hr).trans (Memory.read_writeBytes_regBlock hm hle hr), hhigh⟩

end Sys2Proof
end

section
/-! Timers and the key wait (45_timers_keyboard.md): the register moves of FX07, FX15 and FX18, the beginning of FX0A, and what ends
the hold it puts the CORE in. -/

namespace Sys2Proof

namespace Machine

/-- FX07 (R200). -/
theorem exec_ldVxDt (s : State) (x : Reg) : exec (.ldVxDt x) s = .next (s.setV x s.dt) := rfl

/-- FX15 (R202). -/
theorem exec_ldDtVx (s : State) (x : Reg) : exec (.ldDtVx x) s = .next { s with dt := s.getV x } := rfl

/-- FX18 (R203). -/
theorem exec_ldStVx (s : State) (x : Reg) : exec (.ldStVx x) s = .next { s with st := s.getV x } := rfl

/-- FX0A (R201), its beginning. -/
theorem exec_ldVxKey (s : State) (x : Reg) :
    exec (.ldVxKey x) s = .next { s.call .waitForKeyPress with runState := .keyWait x } := rfl

/-- A start is accepted in STOPPED only (70_reset_and_hazards.md R269). -/
theorem startMachine_of_keyWait {s : State} {x : Reg} (hr : s.runState = .keyWait x) : startMachine s = s := by
  simp only [startMachine, hr]

/-- An event of the host in a hold (70_reset_and_hazards.md R260): reset and stop end it, a start is not accepted, and a tick or a
new ROM leaves the CORE held. -/
theorem hostEffect_keyWait_cases (e : HostEvent) {s : State} {x : Reg} (hr : s.runState = .keyWait x) :
    (e = .reset ∧ hostEffect e s = resetMachine s) ∨ (e = .stop ∧ hostEffect e s = { s with runState := .stopped }) ∨
    (∃ dt st rom, hostEffect e s = { s with dt := dt, st := st, rom := rom } ∧
      (s.cfg.timerTick = .absent → dt = s.dt ∧ st = s.st)) := by
  cases e with
  | idle => exact .inr (.inr ⟨s.dt, s.st, s.rom, rfl, fun _ => ⟨rfl, rfl⟩⟩)
  | start => exact .inr (.inr ⟨s.dt, s.st, s.rom, startMachine_of_keyWait hr, fun _ => ⟨rfl, rfl⟩⟩)
  | reset => exact .inl ⟨rfl, rfl⟩
  | stop => exact .inr (.inl ⟨rfl, by simp only [hostEffect, stopMachine, hr]⟩)
  | tick =>
    cases htick : s.cfg.timerTick with
    | absent => exact .inr (.inr ⟨s.dt, s.st, s.rom, by simp only [hostEffect, tickMachine, htick], fun _ => ⟨rfl, rfl⟩⟩)
    | present =>
      exact .inr (.inr ⟨tickTimer s.dt, tickTimer s.st, s.rom, by simp only [hostEffect, tickMachine, htick], nofun⟩)
  | supplyRom image => exact .inr (.inr ⟨s.dt, s.st, image, rfl, fun _ => ⟨rfl, rfl⟩⟩)

end Machine

open Machine

/-- Settles O51: FX07 is a register write, FX15 and FX18 each an update of one timer. -/
theorem timerRegisterMoves : Obligations.TimerRegisterMoves :=
  fun s x => ⟨⟨_, exec_ldVxDt s x, s.setV_rule x s.dt⟩, exec_ldDtVx s x, exec_ldStVx s x⟩

/-- Settles O52: the next state is the call with the run state set. -/
theorem keyWaitHoldsTheCore : Obligations.KeyWaitHoldsTheCore :=
  fun s x => ⟨_, exec_ldVxKey s x, rfl, rfl, rfl⟩

/-- Settles O23: the step is one moment of the hold, and the Keyboard's answer does not depend on the host's slots. -/
theorem keyDeliveryCompletesTheWait : Obligations.KeyDeliveryCompletesTheWait := by
  intro s rest x hr hturn
  refine ⟨_, step_keyWait hturn hr, ?_⟩
  have hkey : State.deliveredKey { s with inputs := rest } = s.deliveredKey := rfl
  rcases heldMove_cases x { s with inputs := rest } with ⟨hnone, hmove⟩ | ⟨k, hsome, hlt, hmove⟩
  · rw [hkey] at hnone
    simp only [hnone, hmove]
  · rw [hkey] at hsome
    obtain ⟨-, hx, hother⟩ := s.setV_rule x k
    simp only [hsome, hmove]
    exact ⟨hlt, hx, hother, rfl⟩

/-- Settles O22: a waiting machine's step is an event of the host, by `hostEffect_keyWait_cases`, or one moment of the hold, by O23. -/
theorem holdEndsByKeyResetOrStop : Obligations.HoldEndsByKeyResetOrStop := by
  intro s t x hr h
  cases step_to h with
  | host e rest hin =>
    rcases hostEffect_keyWait_cases e (s := { s with inputs := rest }) hr with
      ⟨rfl, heffect⟩ | ⟨rfl, heffect⟩ | ⟨dt, st, rom, heffect, habsent⟩
    · exact .inr (.inr (.inl ⟨rest, hin, heffect⟩))
    · exact .inr (.inr (.inr ⟨rest, hin, heffect⟩))
    · rw [heffect]
      exact .inl ⟨rfl, habsent⟩
  | held rest _ hturn =>
    obtain ⟨u, hu, hmoved⟩ := keyDeliveryCompletesTheWait s rest x hr hturn
    cases h.symm.trans hu
    cases hkey : s.deliveredKey with
    | none =>
      simp only [hkey] at hmoved
      rw [hmoved]
      exact .inl ⟨rfl, fun _ => ⟨rfl, rfl⟩⟩
    | some k =>
      simp only [hkey] at hmoved
      obtain ⟨hlt, hx, hother, hframe⟩ := hmoved
      have hinputs := congrArg State.inputs hframe
      exact .inr (.inl ⟨k, rfl, hlt, hx, hother, by rw [hinputs]; exact hframe⟩)
  | cycle _ _ _ hrun => simp [hr] at hrun
  | idle _ _ hrun => simp [hr] at hrun

end Sys2Proof
end

section
/-! Display operations (46_display.md): the call of 00E0, the call and the flag of DXYN with its window in memory; and the calls of
every instruction, read off `Completed`. -/

namespace Sys2Proof

namespace Machine

/-- 00E0 (R210). -/
theorem exec_cls (s : State) : exec .cls s = .next (s.call .clear) := rfl

/-- DXYN with its window in memory (R212): the Display is asked, and its answer is the flag. -/
theorem exec_drw_of_le {s : State} {x y : Reg} {n : Nibble} (hstart : s.index.toNat < s.cfg.capacity)
    (hend : s.index.toNat + n.toNat ≤ s.cfg.capacity) :
    exec (.drw x y n) s =
      .next ((s.ask (.drawSprite (Memory.readBytes s.mem s.index.toNat n.toNat) (s.getV x) (s.getV y))).setFlag
        (s.erasedAnswer (Memory.readBytes s.mem s.index.toNat n.toNat))) := by
  have hin : admitted s.cfg.capacity s.index.toNat n.toNat = true := (admitted_iff _ _ _).2 ⟨hstart, hend⟩
  simp only [exec, execDrw, State.memRead_of_admitted hin]

/-- The Display's answer to a sprite of N bytes is free, but for the empty sprite (the spec's decision D21). -/
theorem State.erasedAnswer_readBytes (s : State) (m : Memory) (k : Nat) (n : Nibble) :
    s.erasedAnswer (Memory.readBytes m k n.toNat) = decide (n ≠ 0 ∧ Config.spriteErased s.fresh = true) := by
  rw [State.erasedAnswer, Memory.length_readBytes]
  by_cases hn : n = 0
  · simp [hn]
  · have hlen : n.toNat ≠ 0 := fun h => hn (BitVec.eq_of_toNat_eq h)
    simp only [hn, hlen, ne_eq, not_false_eq_true, true_and, if_false, Bool.decide_eq_true]

end Machine

open Machine

/-- Settles O53: the next state is the call. -/
theorem clearCallsTheDisplayOnce : Obligations.ClearCallsTheDisplayOnce :=
  fun s => ⟨_, exec_cls s, rfl, rfl⟩

/-- Settles O54: after the call, which keeps every register, the instruction is a write of the flag to VF. -/
theorem drawSendsSpriteAndSetsFlag : Obligations.DrawSendsSpriteAndSetsFlag := by
  intro s x y n hstart hend
  refine ⟨_, _, exec_drw_of_le hstart hend, Memory.length_readBytes _ _ _, Memory.getElem_readBytes _ _ _, rfl, rfl, ?flag,
    fun r hr => State.getV_setV_other _ _ hr⟩
  case flag =>
    refine (State.getV_setV_same _ _ _).trans ?_
    rw [s.erasedAnswer_readBytes, flagByte_decide]

/-- Settles O59: an error makes no call, and a completed instruction the call of its own line or none. -/
theorem callsComeFromTheirInstructions : Obligations.CallsComeFromTheirInstructions := by
  intro i s t h
  rcases exec_next h with ⟨e, -, rfl⟩ | hc
  · exact .inl rfl
  · exact hc.calls

end Sys2Proof
end

section
/-! What an instruction answers (60_exceptions.md R226 to R232): the errors with their frame, and the three refusals. -/

namespace Sys2Proof

open Machine

/-- Settles O12: an instruction that sets the latch raised, and raising touches the latch and the run state only. -/
theorem raisingInstructionChangesNothingElse : Obligations.RaisingInstructionChangesNothingElse := by
  intro i s t h hnone herr
  rcases exec_next h with ⟨e, -, rfl⟩ | hc
  · rfl
  · exact absurd (hc.err.trans hnone) herr

/-- Settles O13: the latched error is the raised one, and `RaisedBy` says when each is raised, the payload of InvalidAddress too. -/
theorem errorsByInstruction : Obligations.ErrorsByInstruction := by
  intro i s t e h hnone herr
  rcases exec_next h with ⟨e', hraised, rfl⟩ | hc
  · cases herr
    cases e with
    | invalidAddress p => exact hraised.2
    | invalidInstruction | stackOverflow | stackUnderflow => exact hraised
  · cases herr.symm.trans (hc.err.trans hnone)

/-- Settles O15: the four kinds of answer of `exec_answers`, two of them next states. -/
theorem onlyThreeRefusals : Obligations.OnlyThreeRefusals := by
  intro i s
  have hans := exec_answers i s
  generalize exec i s = answer at hans ⊢
  cases hans with
  | raised e _ => exact .inl ⟨_, rfl⟩
  | completed t _ => exact .inl ⟨t, rfl⟩
  | keyRefused x hi hkey => exact .inr (.inl ⟨x, hi, hkey, rfl⟩)
  | digitRefused x hi hdigit => exact .inr (.inr ⟨x, hi, hdigit, rfl⟩)

end Sys2Proof
end

section
/-! The cycle (70_reset_and_hazards.md R262) by what the fetch and the dispatch answer, and the step that is one cycle. -/

namespace Sys2Proof

/-- The word of a fetch as a number: the byte at the lower address is the high one (the spec's decision D2). -/
theorem wordOfBytes_eq_ofNat (hi lo : Byte) : wordOfBytes hi lo = BitVec.ofNat 16 (hi.toNat * 256 + lo.toNat) := by
  have hlt : hi.toNat * 256 + lo.toNat < 65536 := by
    have := byte_lt hi
    have := byte_lt lo
    omega
  refine BitVec.eq_of_toNat_eq ((toNat_append_eq hi lo).trans ?_)
  rw [BitVec.toNat_ofNat]
  exact (Nat.mod_eq_of_lt hlt).symm

/-- Two bytes that decode are a defined word. -/
theorem dispatch_of_decodeBytes {hi lo : Byte} {i : Instr} {more : List Byte} (h : decodeBytes [hi, lo] = .ok (i, more)) :
    dispatch (wordOfBytes hi lo) = some i := by
  simp only [decodeBytes] at h
  split at h
  · cases h
    assumption
  · cases h

namespace Machine

/-- A fetch with a byte outside memory: the payload is pc (the spec's decision D13). -/
theorem fetch_of_outside {s : State} (h : s.cfg.capacity ≤ s.pc.toNat ∨ s.cfg.capacity < s.pc.toNat + 2) :
    fetch s = .error (.invalidAddress s.pc) := by
  rcases fetch_cases s with ⟨hin, -⟩ | ⟨-, hf⟩
  · rw [admitted_iff] at hin
    omega
  · exact hf

/-- A cycle whose fetch fails raises the error of the fetch, with pc not yet incremented (R262). -/
theorem cycle_of_fetch_error {s : State} {e : Error} (hf : fetch s = .error e) : cycle s = raise e s := by
  simp only [cycle, hf]

/-- A cycle that fetches a defined word executes its operation on the incremented pc (R262). -/
theorem cycle_of_defined {s : State} {w : Word} {i : Instr} (hf : fetch s = .ok w) (hw : dispatch w = some i) :
    cycle s = exec i (s.setPc (s.pc + 2)) := by
  simp only [cycle, hf, hw]

/-- A RUNNING machine with an idle host executes the operation of the word at pc; the host's slot does not enter the fetch. -/
theorem step_of_defined {s : State} {rest : List HostEvent} {w : Word} {i : Instr} (hr : s.runState = .running)
    (hturn : CoreTurn s rest) (hf : fetch s = .ok w) (hw : dispatch w = some i) :
    step s = exec i { s with inputs := rest, pc := s.pc + 2 } :=
  (step_running hturn hr).trans (cycle_of_defined (s := { s with inputs := rest }) hf hw)

/-- A cycle answers a next state, or a fetched instruction is refused (60_exceptions.md R229). -/
theorem cycle_proceeds_or_refused (s : State) :
    (∃ t, cycle s = .next t) ∨ ∃ w x, fetch s = .ok w ∧
      (((dispatch w = some (.skp x) ∨ dispatch w = some (.sknp x)) ∧ s.cfg.nkeys ≤ (s.getV x).toNat ∧
          cycle s = .refused (.keyIndexOutOfRange (s.getV x))) ∨
        (dispatch w = some (.ldFont x) ∧ 15 < (s.getV x).toNat ∧ cycle s = .refused (.digitOutOfRange (s.getV x)))) := by
  rcases cycle_cases s with ⟨-, hc⟩ | ⟨w, -, -, hc⟩ | ⟨w, i, hf, hd, hc⟩
  · exact .inl ⟨_, hc⟩
  · exact .inl ⟨_, hc⟩
  · have hdispatch {j : Instr} (hi : i = j) : dispatch w = some j := hi ▸ hd
    rw [hc]
    rcases onlyThreeRefusals i (s.setPc (s.pc + 2)) with hnext | ⟨x, hi, hkey, hrefused⟩ | ⟨x, hi, hdigit, hrefused⟩
    · exact .inl hnext
    · exact .inr ⟨w, x, hf, .inl ⟨hi.imp hdispatch hdispatch, hkey, hrefused⟩⟩
    · exact .inr ⟨w, x, hf, .inr ⟨hdispatch hi, hdigit, hrefused⟩⟩

end Machine

open Machine

/-- Settles O8: the step is a cycle, by the outcome of its fetch and of its dispatch. -/
theorem cycleOfTheScheduler : Obligations.CycleOfTheScheduler := by
  intro s rest hr hturn
  refine ⟨fun hout => ?outside, fun hin w hw => ?fetched⟩
  case outside =>
    exact (step_running hturn hr).trans (cycle_of_fetch_error (fetch_of_outside (s := { s with inputs := rest }) hout))
  case fetched =>
    have hf : fetch s = .ok w := by rw [fetch_of_le hin, wordOfBytes_eq_ofNat, hw]
    refine ⟨fun hundefined => ?_, fun i hi => step_of_defined hr hturn hf hi⟩
    exact ⟨s.pc + 2, (step_running hturn hr).trans (cycle_of_undefined (s := { s with inputs := rest }) hf hundefined)⟩

/-- Settles O9: the bytes that decode are the ones the fetch reads. -/
theorem stepRunsTheDecodedInstruction : Obligations.StepRunsTheDecodedInstruction := by
  intro s rest i more hr hturn hpc hdecode
  exact step_of_defined hr hturn (fetch_of_le hpc) (dispatch_of_decodeBytes hdecode)

end Sys2Proof
end

section
/-! A word put under the fetch by `withFetchWord` (the model's own: log entries 6 and 29). -/

namespace Sys2Proof

/-- A word is two bytes (30_encoding.md R90). -/
@[simp] theorem length_bytesOfWord (w : Word) : (bytesOfWord w).length = 2 := rfl

namespace Machine

/-- With an idle slot in front the next step is the CORE's own. -/
theorem coreTurn_placeWord (s : State) (w : Word) : CoreTurn (placeWord s w) (idleFirst s.inputs).tail := by
  simp only [CoreTurn, placeWord]
  cases s.inputs with
  | nil => exact .inr ⟨rfl, rfl⟩
  | cons e rest => cases e <;> exact .inl rfl

/-- Under the constraints a fetch at the chosen pc has both its bytes in memory. -/
theorem fetchablePc_add_two_le {s : State} (hcfg : Config.wf s.cfg = true) : (fetchablePc s).toNat + 2 ≤ s.cfg.capacity := by
  obtain ⟨-, -, horigin, hcap⟩ := (Config.wf_iff _).1 hcfg
  unfold fetchablePc
  split_ifs with hin
  · exact ((admitted_iff _ _ _).1 hin).2
  · rw [BitVec.toNat_ofNat, two_pow_pcwidth, Nat.mod_eq_of_lt (by omega)]
    exact horigin

/-- A pc that can be fetched from is kept. -/
theorem fetchablePc_of_le {s : State} (h : s.pc.toNat + 2 ≤ s.cfg.capacity) : fetchablePc s = s.pc :=
  if_pos ((admitted_iff _ _ _).2 ⟨by omega, h⟩)

/-- What a placed word's fetch reads is the word. -/
theorem fetch_placeWord {s : State} (w : Word) (hcfg : Config.wf s.cfg = true) (hm : Memory.wf s.cfg.capacity s.mem = true) :
    fetch (placeWord s w) = .ok w := by
  have hpc := fetchablePc_add_two_le hcfg
  have hhi : Memory.read (placeWord s w).mem (placeWord s w).pc.toNat = w.extractLsb' 8 8 :=
    Memory.read_writeBytes_inside hm (bytesOfWord w) hpc (i := 0) (by simp)
  have hlo : Memory.read (placeWord s w).mem ((placeWord s w).pc.toNat + 1) = w.extractLsb' 0 8 :=
    Memory.read_writeBytes_inside hm (bytesOfWord w) hpc (i := 1) (by simp)
  rw [fetch_of_le (s := placeWord s w) hpc, hhi, hlo, wordOfBytes_bytesOfWord]

/-- All 16 bits of a word are placed. -/
theorem withFetchWord_toNat (s : State) (w : Word) : s.withFetchWord 16 w.toNat = placeWord s w := by
  rw [State.withFetchWord, Nat.mod_eq_of_lt w.isLt]
  exact congrArg (placeWord s) (BitVec.eq_of_toNat_eq (Nat.mod_eq_of_lt w.isLt))

end Machine

open Machine

/-- Settles O10: the placed word is fetched, and the dispatch undoes the encoder. -/
theorem placedInstructionRunsNext : Obligations.PlacedInstructionRunsNext := by
  intro s i hcfg hm
  rw [withFetchWord_toNat]
  refine ⟨_, step_of_defined (s := placeWord s (encode i)) rfl (coreTurn_placeWord s _) (fetch_placeWord _ hcfg hm)
    (dispatch_encode i), rfl, fun hpc => ?_⟩
  have hkept : (placeWord s (encode i)).pc = s.pc := fetchablePc_of_le hpc
  refine ⟨congrArg (· + 2) hkept, fun a h0 h1 => Memory.read_writeBytes_outside s.mem _ ?_⟩
  rw [fetchablePc_of_le hpc, length_bytesOfWord]
  omega

end Sys2Proof
end

section
/-! The events of the host (70_reset_and_hazards.md R260, R268 to R272; 60_exceptions.md R242) in every run state. -/

namespace Sys2Proof

namespace Machine

/-- A start in STOPPED is the reset sequence (R269). -/
theorem startMachine_of_stopped {s : State} (hr : s.runState = .stopped) : startMachine s = resetMachine s := by
  simp only [startMachine, hr]

/-- A start in any other run state is not accepted (R269). -/
theorem startMachine_of_ne_stopped {s : State} (hr : s.runState ≠ .stopped) : startMachine s = s := by
  unfold startMachine
  split
  · contradiction
  all_goals rfl

/-- A stop where the CORE has a move cancels it, a pending FX0A too (R270). -/
theorem stopMachine_of_active {s : State} (hr : s.runState = .running ∨ ∃ x, s.runState = .keyWait x) :
    stopMachine s = { s with runState := .stopped } := by
  rcases hr with hr | ⟨x, hr⟩ <;> simp only [stopMachine, hr]

/-- A stop where the CORE has no move does nothing (R260). -/
theorem stopMachine_of_inactive {s : State} (hr : s.runState = .stopped ∨ s.runState = .halted) : stopMachine s = s := by
  rcases hr with hr | hr <;> simp only [stopMachine, hr]

/-- A timer stops at zero, as the subtraction of numbers does (60_exceptions.md R242). -/
theorem toNat_tickTimer (t : Byte) : (tickTimer t).toNat = t.toNat - 1 := by
  unfold tickTimer
  split_ifs with h
  · rw [h]
    rfl
  · have hpos : t.toNat ≠ 0 := fun h0 => h (BitVec.eq_of_toNat_eq h0)
    exact BitVec.toNat_sub_of_le (BitVec.le_def.2 (Nat.one_le_iff_ne_zero.2 hpos))

/-- Without the agent a tick does nothing (the spec's decision D11). -/
theorem tickMachine_of_absent {s : State} (h : s.cfg.timerTick = .absent) : tickMachine s = s := by
  simp only [tickMachine, h]

/-- With the agent a tick lowers both timers and touches nothing else. -/
theorem tickMachine_of_present {s : State} (h : s.cfg.timerTick = .present) :
    tickMachine s = { s with dt := tickTimer s.dt, st := tickTimer s.st } := by
  simp only [tickMachine, h]

/-- Where the CORE has no move, every event but one that resets leaves all but the timers and the ROM, and the timers are left to
the tick agent. -/
theorem hostEffect_of_inactive {e : HostEvent} {s : State} (hr : s.runState = .stopped ∨ s.runState = .halted)
    (hreset : e ≠ .reset) (hstart : e = .start → s.runState ≠ .stopped) :
    ∃ dt st rom, hostEffect e s = { s with dt := dt, st := st, rom := rom } ∧
      (s.cfg.timerTick = .absent → dt = s.dt ∧ st = s.st) := by
  cases e with
  | idle => exact ⟨s.dt, s.st, s.rom, rfl, fun _ => ⟨rfl, rfl⟩⟩
  | start => exact ⟨s.dt, s.st, s.rom, startMachine_of_ne_stopped (hstart rfl), fun _ => ⟨rfl, rfl⟩⟩
  | reset => exact absurd rfl hreset
  | stop => exact ⟨s.dt, s.st, s.rom, stopMachine_of_inactive hr, fun _ => ⟨rfl, rfl⟩⟩
  | tick =>
    cases htick : s.cfg.timerTick with
    | absent => exact ⟨s.dt, s.st, s.rom, tickMachine_of_absent htick, fun _ => ⟨rfl, rfl⟩⟩
    | present => exact ⟨tickTimer s.dt, tickTimer s.st, s.rom, tickMachine_of_present htick, nofun⟩
  | supplyRom image => exact ⟨s.dt, s.st, image, rfl, fun _ => ⟨rfl, rfl⟩⟩

end Machine

open Machine

/-- Settles O18: each event is a step of its own, and its effect goes by the run state. -/
theorem hostEventTable : Obligations.HostEventTable := by
  intro s rest
  refine ⟨fun hin => ⟨fun hr => ?stopActive, fun hr => ?stopInactive⟩,
    fun hin => ⟨fun hr => ?startStopped, fun hr => ?startElse⟩, step_reset, fun image hin => step_hostEvent hin nofun⟩
  case stopActive =>
    exact (step_hostEvent hin nofun).trans (congrArg _ (stopMachine_of_active (s := { s with inputs := rest }) hr))
  case stopInactive =>
    exact (step_hostEvent hin nofun).trans (congrArg _ (stopMachine_of_inactive (s := { s with inputs := rest }) hr.symm))
  case startStopped =>
    exact (step_hostEvent hin nofun).trans (congrArg _ (startMachine_of_stopped (s := { s with inputs := rest }) hr))
  case startElse =>
    exact (step_hostEvent hin nofun).trans (congrArg _ (startMachine_of_ne_stopped (s := { s with inputs := rest }) hr))

/-- Settles O24: a tick is a step of its own, with or without the agent. -/
theorem timerTickStopsAtZero : Obligations.TimerTickStopsAtZero := by
  intro s rest hin
  have hstep : step s = .next (tickMachine { s with inputs := rest }) := step_hostEvent hin nofun
  constructor
  · intro hpresent
    rw [tickMachine_of_present (s := { s with inputs := rest }) hpresent] at hstep
    exact ⟨_, hstep, toNat_tickTimer s.dt, toNat_tickTimer s.st, rfl⟩
  · intro habsent
    rwa [tickMachine_of_absent (s := { s with inputs := rest }) habsent] at hstep

end Sys2Proof
end

section
/-! STOPPED and HALTED (60_exceptions.md R234, 70_reset_and_hazards.md R267): the CORE has no move of its own, so a step is an event
of the host, an idle slot, or the end of the run; and where steps go on. -/

namespace Sys2Proof

open Machine

/-- Settles O11: with no slot left the answer is the fault of the run state. -/
theorem noEnabledStepEndsTheRun : Obligations.NoEnabledStepEndsTheRun := by
  intro s hin
  constructor
  · intro hr
    simp only [step, advance, hin, ownMove, hr]
  · intro hr
    simp only [step, advance, hin, ownMove, hr]

namespace Machine

/-- An idle slot of a machine that has no move is used up. -/
theorem step_idle_of_inactive {s : State} {rest : List HostEvent} (hin : s.inputs = .idle :: rest)
    (hr : s.runState = .stopped ∨ s.runState = .halted) : step s = .next { s with inputs := rest } := by
  rcases hr with hr | hr <;> simp only [step, advance, hin, ownMove, hr]

/-- A next state of a machine that has no move: a reset, a start of a STOPPED machine, or only the host's slots, the ROM and the
timers have changed, the timers by the tick agent. -/
theorem step_of_inactive {s t : State} (hr : s.runState = .stopped ∨ s.runState = .halted) (h : step s = .next t) :
    (∃ rest, s.inputs = .reset :: rest) ∨ (s.runState = .stopped ∧ ∃ rest, s.inputs = .start :: rest) ∨
    (t = { s with dt := t.dt, st := t.st, rom := t.rom, inputs := t.inputs } ∧
      (s.cfg.timerTick = .absent → t.dt = s.dt ∧ t.st = s.st)) := by
  cases step_to h with
  | host e rest hin =>
    by_cases hreset : e = .reset
    · exact .inl ⟨rest, hreset ▸ hin⟩
    by_cases hstart : e = .start ∧ s.runState = .stopped
    · exact .inr (.inl ⟨hstart.2, rest, hstart.1 ▸ hin⟩)
    obtain ⟨dt, st, rom, heffect, habsent⟩ :=
      hostEffect_of_inactive (s := { s with inputs := rest }) hr hreset (fun he hs => hstart ⟨he, hs⟩)
    rw [heffect]
    exact .inr (.inr ⟨rfl, habsent⟩)
  | idle rest => exact .inr (.inr ⟨rfl, fun _ => ⟨rfl, rfl⟩⟩)
  | cycle _ _ _ hrun => simp [hrun] at hr
  | held _ _ _ hrun => simp [hrun] at hr

/-- The next slot is an event of the host, or it is the CORE's turn (60_exceptions.md R231). -/
theorem hostEvent_or_coreTurn (s : State) :
    (∃ e rest, s.inputs = e :: rest ∧ e ≠ .idle) ∨ ∃ rest, CoreTurn s rest := by
  cases hin : s.inputs with
  | nil => exact .inr ⟨[], .inr ⟨hin, rfl⟩⟩
  | cons e rest =>
    by_cases he : e = .idle
    · exact .inr ⟨rest, .inl (he ▸ hin)⟩
    · exact .inl ⟨e, rest, rfl, he⟩

end Machine

/-- Settles O16: of the three kinds of next state a HALTED machine has no accepted start. -/
theorem onlyResetLeavesHalted : Obligations.OnlyResetLeavesHalted := by
  intro s t hr h
  rcases step_of_inactive (.inr hr) h with hreset | ⟨hstopped, -⟩ | hkept
  · exact .inl hreset
  · cases hr.symm.trans hstopped
  · exact .inr hkept

/-- Settles O17: the values of power-on are its definition, and a STOPPED machine has the three kinds of next state. -/
theorem powerOnIsStopped : Obligations.PowerOnIsStopped := by
  refine ⟨fun cfg rom inputs => ?_, fun s t hr h => ?_⟩
  · refine ⟨fun r => ?_, rfl, rfl, rfl, rfl, rfl, Memory.read_nil, rfl, rfl⟩
    exact Vector.getElem_replicate (reg_lt r)
  · rcases step_of_inactive (.inl hr) h with ⟨rest, hreset⟩ | ⟨-, rest, hstart⟩ | ⟨hkept, -⟩
    · exact .inl ⟨rest, .inr hreset⟩
    · exact .inl ⟨rest, .inl hstart⟩
    · exact .inr hkept

/-- Settles O60: an event of the host always goes on; on the CORE's turn a cycle is refused or goes on, a hold goes on, and a
machine without a move goes on while there is a slot to use up. -/
theorem stepProceedsUnlessEndedOrRefused : Obligations.StepProceedsUnlessEndedOrRefused := by
  intro s
  rcases hostEvent_or_coreTurn s with ⟨e, rest, hin, he⟩ | ⟨rest, hturn⟩
  · exact .inl ⟨_, step_hostEvent hin he⟩
  cases hr : s.runState with
  | running =>
    rw [Proceeds, step_running hturn hr]
    rcases cycle_proceeds_or_refused { s with inputs := rest } with hnext | hrefused
    · exact .inl hnext
    · exact .inr (.inr ⟨rfl, hrefused⟩)
  | keyWait x => exact .inl ⟨_, step_keyWait hturn hr⟩
  | stopped =>
    rcases hturn with hidle | ⟨hend, -⟩
    · exact .inl ⟨_, step_idle_of_inactive hidle (.inl hr)⟩
    · exact .inr (.inl ⟨hend, .inl ⟨rfl, (noEnabledStepEndsTheRun s hend).1 hr⟩⟩)
  | halted =>
    rcases hturn with hidle | ⟨hend, -⟩
    · exact .inl ⟨_, step_idle_of_inactive hidle (.inr hr)⟩
    · exact .inr (.inl ⟨hend, .inr ⟨rfl, (noEnabledStepEndsTheRun s hend).2 hr⟩⟩)

end Sys2Proof
end

section
/-! The strict families 0, 5 and 9 (30_encoding.md R98, R102; conflict C1). -/

namespace Sys2Proof

/-- Settles O4 (the spec's decisions D4 and D5): the second level of each family compares the one field that is left. -/
theorem strictFamilies : Obligations.StrictFamilies := by
  refine ⟨fun nnn => ?system, fun x y n => ⟨?seReg, ?sneReg⟩⟩
  case system =>
    obtain ⟨hop, hnnn⟩ := fields_op_nnn 0x0#4 nnn
    rw [dispatch, dispatchFields_system hop, dispatchSystem, hnnn]
  case seReg =>
    obtain ⟨hop, hx, hy, hn⟩ := fields_op_x_y_n 0x5#4 x y n
    rw [dispatch, dispatchFields_seReg hop, dispatchRegSkip, hx, hy, hn]
  case sneReg =>
    obtain ⟨hop, hx, hy, hn⟩ := fields_op_x_y_n 0x9#4 x y n
    rw [dispatch, dispatchFields_sneReg hop, dispatchRegSkip, hx, hy, hn]

end Sys2Proof
end
